-- ==== Sys2Proof/Word.lean ====
section
/-! DEFINITION. The widths of ETFD's words, and the named values its coded registers take. -/

namespace Sys2Proof

/-- A byte on the wire, in REC and in the scratch store (R7, R49). -/
abbrev Byte := BitVec 8

/-- A 10-bit command word `cmd`, or a 10-bit receive decode word `rxd` (R60, R69). -/
abbrev Word10 := BitVec 10

/-- The 9-bit width of `rx_cursor` and of `tx_k` (R26, R30). -/
abbrev Index9 := BitVec 9

/-- The four receive states (R24). Their 2-bit codes are `RxState.code` in Decode.lean. -/
inductive RxState where
  | h1   -- AwaitingHeader1
  | h2   -- AwaitingHeader2
  | len  -- AwaitingLength
  | pay  -- AccumulatingPayload
deriving DecidableEq, Repr, Inhabited

/-- The values of `cur_cmd` (R29). -/
inductive CmdKind where
  | begin
  | send
  | poll
deriving DecidableEq, Repr, Inhabited

/-- The values of `fault_reason` (R31, R155). -/
inductive FaultReason where
  | unconfigured
  | badLen
  | badCmd
  | hazard
deriving DecidableEq, Repr, Inhabited

/-- Which function the parameter `CRC8` is (R6, R143): the default of R140, or another total, deterministic, pure function,
of which nothing is known but that it is a function. Log entry 14. -/
inductive Checksum where
  | smbus
  | other (n : Nat)
deriving DecidableEq, Repr, Inhabited

end Sys2Proof
end

