-- ==== Sys2Proof/Config.lean ====
section
/-! DEFINITION. What is fixed for an ETFD instance (R6), the parameters the spec leaves OPEN, and the free values. The
parameter CRC8 (R6, R143) is chosen by a field of State; Machine/Flags.lean holds its default. -/

namespace Sys2Proof.Config

/-- `HDR1` (R6). -/
def hdr1 : Byte := 0x06#8

/-- `HDR2` (R6). -/
def hdr2 : Byte := 0x85#8

/-- `SCR_CAP`, the bytes of the scratch store (R6, R25). -/
def scrCap : Nat := 256

/-- The bytes of the largest record: N is at most 255 (R6 row N), so REC indices run from 0 to 254. -/
def recCap : Nat := 255

/-- What a byte of REC or of the scratch store reads as when nothing has written it.
DESIGN CHOICE (log entries 1 and 2), unsafe. -/
def unwritten : Byte := 0x00#8

/-- `HOST_ADDR_W`, the width of Host addresses: OPEN (R6, R51). Log entry 19. -/
opaque hostAddrW : Nat

/-- `REC_BASE`, the Host-side address of REC index 0, of width `HOST_ADDR_W`: OPEN (R6, R51). Log entry 19. -/
opaque recBase : BitVec hostAddrW

/-- `RX_DEPTH`, which ETFD cannot observe: OPEN (R6, U12). Log entry 19. -/
opaque rxDepth : Nat

/-- `TX_DEPTH`, which ETFD cannot observe: OPEN (R6, U12). Log entry 19. -/
opaque txDepth : Nat

/-- The functions a model may take in place of the default CRC8 (R143): nothing is known of them. Log entry 14. -/
opaque otherChecksum : Nat → List Byte → Byte

/-- A free byte: what an unspecified 8-bit value is after a hardware reset (R34, U4, U5). Log entry 12. -/
opaque freeByte : Nat → Byte

/-- A free 9-bit value, for `tx_k` after a hardware reset (R30, R34). Log entry 12. -/
opaque freeIndex : Nat → Index9

/-- A free command kind, for `cur_cmd` after a hardware reset (R29, R34). Log entry 12. -/
opaque freeCmd : Nat → CmdKind

/-- A free fault code, for `fault_reason` after a hardware reset (R31, R34). Log entry 12. -/
opaque freeReason : Nat → FaultReason

/-- A free choice, per byte, of "the new byte landed" when a reset falls inside the copy into REC (R171, U6).
Log entry 13. -/
opaque freeLanded : Nat → Bool

end Sys2Proof.Config
end

