-- ==== Sys2Proof/Syntax.lean ====
section
/-! DEFINITION. The instructions of ETFD: one constructor for each row of spec/opcode_table.json. -/

namespace Sys2Proof

/-- The commands (format CMD, R61), the receive micro-steps (format RXD, R69; `b` is the byte `RxPop()` returns) and the
transmit micro-steps (format TXK, R70; `i` is the REC index `tx_k - 3` of R95). -/
inductive Instr where
  | begin (n : Byte)
  | send
  | poll
  | rxEmpty
  | rxH1Sync
  | rxH1Skip (b : Byte)
  | rxH2Ok
  | rxH2Bad (b : Byte)
  | rxLenOk (b : Byte)
  | rxLenBad (b : Byte)
  | rxPayStore (b : Byte)
  | rxPayLast (b : Byte)
  | txHdr1
  | txHdr2
  | txLen
  | txPay (i : Byte)
  | txCrc
deriving DecidableEq, Repr

/-- The two registers that the row conditions of R69 and R70 read besides the decode word itself. -/
structure RowCtx where
  cfgLen : Byte
  cursor : Index9
deriving DecidableEq, Repr

/-- What the Block looks at to select what it does next: a command word (R60), the receive stream's being empty (R69
priority 0), a receive decode word (R69), or the transmit index (R70). -/
inductive Fetched where
  | cmd (w : Word10)
  | noByte
  | rxd (w : Word10)
  | txk (k : Index9)
deriving DecidableEq, Repr

end Sys2Proof
end

