-- ==== Sys2Proof/Decode.lean ====
section
/-! DEFINITION. Decoding of the three formats of the opcode table, total, with named rejections, and the encoder. -/

namespace Sys2Proof

/-- Why a word names no instruction. -/
inductive Reject where
  | reservedOp       -- a command word with op 00 (R63)
  | reservedOperand  -- a SEND or POLL word with a non-zero operand (R63)
  | noReceiveRow     -- state PAY with the cursor past `cfg_len`: no row of R69 (excluded by R26)
  | noTransmitRow    -- `tx_k` past N+3: no row of R70 (N+4 means the SEND is done, R30)
deriving DecidableEq, Repr

/-- The answer of a decoder. -/
inductive Decoded where
  | instr (i : Instr)
  | reject (r : Reject)
deriving DecidableEq, Repr

/-- The answer as an Option. -/
def Decoded.toOption : Decoded → Option Instr
  | .instr i => some i
  | .reject _ => none

/-- The encoding of `rx_state` (R24). -/
def RxState.code : RxState → BitVec 2
  | .h1 => 0b00#2
  | .h2 => 0b01#2
  | .len => 0b10#2
  | .pay => 0b11#2

/-- The state a 2-bit code names: every value is legal (R24). -/
def RxState.ofCode (c : BitVec 2) : RxState :=
  if c = 0b00#2 then .h1 else if c = 0b01#2 then .h2 else if c = 0b10#2 then .len else .pay

/-- `cmd[9:8]`, or `rxd[9:8]` (R60, R69). -/
def hiField (w : Word10) : BitVec 2 := w.extractLsb' 8 2

/-- `cmd[7:0]`, or `rxd[7:0]` (R60, R69). -/
def loField (w : Word10) : Byte := w.extractLsb' 0 8

/-- `{hi, lo}`: the 10-bit word of the two fields (R7, R60, R69). -/
def word10 (hi : BitVec 2) (lo : Byte) : Word10 := hi ++ lo

/-- The opcode map of the command word (R61, R63). -/
def decodeCmd (w : Word10) : Decoded :=
  if hiField w = 0b00#2 then .reject .reservedOp
  else if hiField w = 0b01#2 then .instr (.begin (loField w))
  else if loField w ≠ 0#8 then .reject .reservedOperand
  else if hiField w = 0b10#2 then .instr .send
  else .instr .poll

/-- The receive rows 1 to 8, in the priority order of R69. -/
def decodeRxd (c : RowCtx) (w : Word10) : Decoded :=
  let b := loField w
  match RxState.ofCode (hiField w) with
  | .h1 => if b = Config.hdr1 then .instr .rxH1Sync else .instr (.rxH1Skip b)
  | .h2 => if b = Config.hdr2 then .instr .rxH2Ok else .instr (.rxH2Bad b)
  | .len => if b = c.cfgLen then .instr (.rxLenOk b) else .instr (.rxLenBad b)
  | .pay =>
    if c.cursor.toNat < c.cfgLen.toNat then .instr (.rxPayStore b)
    else if c.cursor.toNat = c.cfgLen.toNat then .instr (.rxPayLast b)
    else .reject .noReceiveRow

/-- The transmit rows (R70). -/
def decodeTxk (c : RowCtx) (k : Index9) : Decoded :=
  if k.toNat = 0 then .instr .txHdr1
  else if k.toNat = 1 then .instr .txHdr2
  else if k.toNat = 2 then .instr .txLen
  else if k.toNat < c.cfgLen.toNat + 3 then .instr (.txPay (BitVec.ofNat 8 (k.toNat - 3)))
  else if k.toNat = c.cfgLen.toNat + 3 then .instr .txCrc
  else .reject .noTransmitRow

/-- What the Block does on what it looks at. An empty receive stream is RX_EMPTY in every state (R69 priority 0). -/
def decode (c : RowCtx) : Fetched → Decoded
  | .cmd w => decodeCmd w
  | .noByte => .instr .rxEmpty
  | .rxd w => decodeRxd c w
  | .txk k => decodeTxk c k

/-- The words of an instruction (R61, R69, R70). The word of TX_CRC is the index N+3. -/
def encode (c : RowCtx) : Instr → Fetched
  | .begin n => .cmd (word10 0b01#2 n)
  | .send => .cmd 0x200#10
  | .poll => .cmd 0x300#10
  | .rxEmpty => .noByte
  | .rxH1Sync => .rxd 0x006#10
  | .rxH1Skip b => .rxd (word10 RxState.h1.code b)
  | .rxH2Ok => .rxd 0x185#10
  | .rxH2Bad b => .rxd (word10 RxState.h2.code b)
  | .rxLenOk b => .rxd (word10 RxState.len.code b)
  | .rxLenBad b => .rxd (word10 RxState.len.code b)
  | .rxPayStore b => .rxd (word10 RxState.pay.code b)
  | .rxPayLast b => .rxd (word10 RxState.pay.code b)
  | .txHdr1 => .txk 0#9
  | .txHdr2 => .txk 1#9
  | .txLen => .txk 2#9
  | .txPay i => .txk (i.zeroExtend 9 + 3#9)
  | .txCrc => .txk (c.cfgLen.zeroExtend 9 + 3#9)

/-- The registers under which a word of the opcode table is read when no machine state is at hand: the smallest record
length that the word's low byte does not equal, with the cursor at 0 (log entry 16). -/
def tableCtx (w : Nat) : RowCtx :=
  { cfgLen := if w % 256 = 1 then 2#8 else 1#8, cursor := 0#9 }

/-- The format a bare word of the opcode table is read in. The table's three formats number their words in one space, so
one word can stand for rows of two formats: a word of fewer than 10 bits is a `tx_k`; else an assigned command word is a
command; else a word below 3 is the `tx_k` of a header row; else it is a receive decode word (log entry 16). -/
def tableFetched (nbits w : Nat) : Option Fetched :=
  if 1024 ≤ w then none
  else if nbits < 10 then (if w < 512 then some (.txk (BitVec.ofNat 9 w)) else none)
  else
    match decodeCmd (BitVec.ofNat 10 w) with
    | .instr _ => some (.cmd (BitVec.ofNat 10 w))
    | .reject _ => if w < 3 then some (.txk (BitVec.ofNat 9 w)) else some (.rxd (BitVec.ofNat 10 w))

/-- The instruction that a word of the opcode table decodes to, read in the format `tableFetched` gives it. -/
def decodeTableWord (nbits w : Nat) : Option Instr :=
  match tableFetched nbits w with
  | none => none
  | some f => (decode (tableCtx w) f).toOption

end Sys2Proof
end

