-- ==== Sys2Proof/Machine/State.lean ====
section
/-! DEFINITION. The state of one ETFD instance and of the agents around it (R5, R20-R34, R40-R43), as plain data. -/

namespace Sys2Proof.Machine

/-- A byte store: the bytes that differ from `Config.unwritten`, in rising order of index. -/
abbrev Memory := List Host.Cell

/-- One step of an agent of R5, or an explicit move of the Block. -/
inductive AgentMove where
  /-- The Host presents a command word (R60). The Host waits while a command is in flight (R64). -/
  | issue (w : Word10)
  /-- The Host waits for the response of the command in flight (R72). -/
  | await
  /-- The Host reads REC index `i`. -/
  | hostRead (i : Nat)
  /-- The Host writes REC index `i` (R72 `HOSTW`). -/
  | hostWrite (i : Nat) (v : Byte)
  /-- The RX source appends bytes (R42, R72 `RX`). -/
  | rxAppend (bs : List Byte)
  /-- The TX sink becomes ready, or not ready (R91, R72 `TXREADY`). -/
  | txReady (r : Bool)
  /-- The TX sink removes the oldest byte of the transmit stream (R43). DESIGN CHOICE (log entry 22): it may do so whether
  or not it is ready, and on an empty stream nothing happens. -/
  | txTake
  /-- The Block takes one micro-step, if it has one (R5, R110). -/
  | block
  /-- Hardware reset between two micro-steps (R170, R171). -/
  | hwReset
  /-- Hardware reset that falls inside the copy of a valid frame into REC (R171, U6). -/
  | hwResetInCopy
deriving DecidableEq, Repr

/-- What the Host receives: responses (R65), and the bytes its reads of REC return. -/
inductive HostObs where
  | done
  | ok (v : Bool)
  | recByte (i : Nat) (v : Byte)
deriving DecidableEq, Repr

/-- The machine. The Block's registers, then the stores and streams it shares with other agents, then the instance's
parameter `crc8Fn`, then the model's own fields (`agenda`, `cycle`, `freeCtr`). -/
@[ext]
structure State where
  /-- `cfg_valid` (R22) -/
  cfgValid : Bool
  /-- `cfg_len`, the record length N (R23) -/
  cfgLen : Byte
  /-- `rx_state` (R24) -/
  rxState : RxState
  /-- `scr`, the scratch store (R25, R41) -/
  scr : Memory
  /-- `rx_cursor` (R26) -/
  rxCursor : Index9
  /-- `busy` (R29) -/
  busy : Bool
  /-- `cur_cmd` (R29) -/
  curCmd : CmdKind
  /-- `tx_k` (R30) -/
  txK : Index9
  /-- `tx_crc` (R30) -/
  txCrc : Byte
  /-- `faulted` (R31) -/
  faulted : Bool
  /-- `fault_reason` (R31) -/
  faultReason : FaultReason
  /-- REC, the Host's record buffer (R40) -/
  recMem : Memory
  /-- the RX stream, oldest byte first (R42) -/
  rx : List Byte
  /-- the TX stream, oldest byte first (R43) -/
  tx : List Byte
  /-- the TX sink is ready (R91) -/
  txReady : Bool
  /-- what the Host has received, oldest first (R33, R65); the Host's, no register of ETFD (R32) -/
  hostLog : List HostObs
  /-- `CRC8`, the instance's checksum function (R6, R143); no rule writes it; log entry 14 -/
  crc8Fn : Checksum
  /-- the agents' steps still to come (R5); the model's own, log entry 4 -/
  agenda : List AgentMove
  /-- the agents' steps that come after the agenda, over and over; with none, the Block moves alone (R110, R182); the
  model's own, log entry 4 -/
  cycle : List AgentMove
  /-- the counter free values are drawn by; the model's own, log entry 12 -/
  freeCtr : Nat
deriving DecidableEq, Repr

/-- What stops the machine. The spec's own faults (R151-R154) are no stops: they are next states (R152). -/
inductive Fault where
  /-- Raised by a Host read or write (`AgentMove.hostRead`, `AgentMove.hostWrite`) at an index that no record has: 255 or above
  (R40, R6 row N). Safe: the machine stops. Log entry 15. -/
  | recIndexAbsent
deriving DecidableEq, Repr

/-- What has no meaning in the model. -/
inductive Refusal where
  /-- Raised by an arm of exec whose instruction has no meaning yet. Safe. No arm raises it. -/
  | notModelled (mnemonic : String)
  /-- Raised by `exec` of a command while another is in flight: the Host has no such step (R64). `step` never raises it.
  Safe. Log entry 7. -/
  | commandWhileBusy
  /-- Raised by `exec` of a micro-step row that R69 or R70 does not select in that state. `step` never raises it. Safe.
  Log entry 8. -/
  | rowNotSelected
  /-- Raised by a step of the Block with a command in flight in a state for which R69 has no row: PAY with the cursor past
  `cfg_len`, which R26 excludes, or `cur_cmd` = BEGIN, which has no micro-step after its own (R80). Safe. Log entry 8. -/
  | noRow
deriving DecidableEq, Repr

/-- The machine right after hardware reset (R34, R170). The values the spec leaves unspecified there (scr, cur_cmd, tx_k,
tx_crc, fault_reason) and those of the other agents are DESIGN CHOICES (log entries 1, 2, 3, 12), unsafe. -/
def State.reset : State where
  cfgValid := false
  cfgLen := 0#8
  rxState := .h1
  scr := []
  rxCursor := 0#9
  busy := false
  curCmd := .begin
  txK := 0#9
  txCrc := 0#8
  faulted := false
  faultReason := .unconfigured
  recMem := []
  rx := []
  tx := []
  txReady := true
  hostLog := []
  crc8Fn := .smbus
  agenda := []
  cycle := []
  freeCtr := 0

end Sys2Proof.Machine
end

