-- ==== Sys2Proof/Machine/Operands.lean ====
section
/-! DEFINITION. The operands of the rows: the record length as an index (R62), the REC index of a transmit row (R95), and
what the Block looks at to select a row (R69, R70). -/

namespace Sys2Proof.Machine

/-- N, the configured record length, as a number. -/
def State.recLen (s : State) : Nat := s.cfgLen.toNat

/-- The `tx_k` value at which a SEND is done: N+4 (R30, R90). -/
def State.frameLen (s : State) : Nat := s.recLen + 4

/-- The registers the row conditions of R69 and R70 read. -/
def State.rowCtx (s : State) : RowCtx := { cfgLen := s.cfgLen, cursor := s.rxCursor }

/-- `rxd = {rx_state, b}` (R69). -/
def State.rxd (s : State) (b : Byte) : Word10 := word10 s.rxState.code b

/-- What the Block looks at while a command is in flight: the receive stream during a POLL (R69), `tx_k` during a SEND
(R70). BEGIN is one indivisible micro-step (R80), so nothing is looked at for it. -/
def State.fetched (s : State) : Option Fetched :=
  if s.busy then
    match s.curCmd with
    | .begin => none
    | .send => some (.txk s.txK)
    | .poll =>
      match s.rx with
      | [] => some .noByte
      | b :: _ => some (.rxd (s.rxd b))
  else none

/-- The Host-side address of REC byte `i`: `REC_BASE + i` (R40, R51). The sum is exact (R7) where `RecFits` holds. -/
def recHostAddr (i : Nat) : BitVec Config.hostAddrW := Config.recBase + BitVec.ofNat Config.hostAddrW i

/-- The `n` bytes from `REC_BASE` on lie in the Host's address space: the Host's duty (R51, R173). -/
def RecFits (n : Nat) : Prop := Config.recBase.toNat + n ≤ 2 ^ Config.hostAddrW

/-- The agents' steps in the order they come next: the agenda, and after it the cycle, begun again each time (log entry
4). -/
def State.schedule (s : State) : List AgentMove :=
  match s.agenda with
  | [] => s.cycle
  | a :: rest => a :: rest

/-- `s` with the agents' steps still to come replaced (log entry 4). -/
def State.withAgenda (s : State) (ms : List AgentMove) : State := { s with agenda := ms }

/-- R69 and R70 select row `i` in state `s`. -/
def State.selects (s : State) (i : Instr) : Bool :=
  match s.fetched with
  | none => false
  | some f => decode s.rowCtx f == .instr i

end Sys2Proof.Machine
end

