-- ==== Sys2Proof/Machine/Ops.lean ====
section
/-! DEFINITION. The shared operations: the byte stores, the streams, accepting a command, responding, raising a fault, and
the guard of a micro-step row. -/

namespace Sys2Proof.Machine

/-- What a meaning answers. -/
abbrev Result := Host.Outcome State Fault Refusal

/-! ### The byte stores (R40, R41, R49) -/

/-- The cells hold indices that rise strictly from `lo` and no byte that an unlisted index reads as. -/
def Memory.wfFrom : Nat → Memory → Bool
  | _, [] => true
  | lo, (a, v) :: m => decide (lo ≤ a) && v != Config.unwritten && Memory.wfFrom (a + 1) m

/-- The canonical form of a store. -/
def Memory.wf (m : Memory) : Bool := Memory.wfFrom 0 m

/-- Every listed index is below `cap`. -/
def Memory.below (cap : Nat) (m : Memory) : Bool := m.all fun c => decide (c.1 < cap)

/-- The byte at index `a`. -/
def Memory.read : Memory → Nat → Byte
  | [], _ => Config.unwritten
  | (b, v) :: m, a => if b = a then v else Memory.read m a

/-- The cells that hold `v` at index `a`: none, if an unlisted index reads as `v`. -/
def Memory.cell (a : Nat) (v : Byte) : Memory := if v = Config.unwritten then [] else [(a, v)]

/-- Byte `v` stored at index `a`. -/
def Memory.write : Memory → Nat → Byte → Memory
  | [], a, v => Memory.cell a v
  | (b, w) :: m, a, v =>
    if a < b then Memory.cell a v ++ (b, w) :: m
    else if a = b then Memory.cell a v ++ m
    else (b, w) :: Memory.write m a v

/-- The bytes at indices `a`, `a+1`, …, `a+n-1`. -/
def Memory.readRange (m : Memory) (a : Nat) : Nat → List Byte
  | 0 => []
  | n + 1 => m.read a :: Memory.readRange m (a + 1) n

/-- The bytes stored at indices `a`, `a+1`, … in ascending order (R57). -/
def Memory.writeRange (m : Memory) (a : Nat) : List Byte → Memory
  | [] => m
  | v :: vs => Memory.writeRange (m.write a v) (a + 1) vs

/-- The payload a frame attempt has accumulated: `scr[0..N)` (R109). -/
def State.payload (s : State) : List Byte := s.scr.readRange 0 s.recLen

/-! ### The streams (R42, R43, R91) -/

/-- The effect of `RxPop()` on the receive stream: its oldest byte is gone (R50). The rows that use it are selected only
when a byte is there, and hold that byte as their operand. -/
def State.rxPop (s : State) : State := { s with rx := s.rx.tail }

/-- `TxPush(b)` with the rest `t` of its micro-step: both take effect together if the sink is ready; else the micro-step
holds, and nothing changes (R91). -/
def txPush (b : Byte) (s t : State) : Result :=
  if s.txReady then .next { t with tx := s.tx ++ [b] } else .next s

/-! ### Commands: accepting, responding, faulting (R64, R65, R152) -/

/-- `respond(v)`: the command ends and the Host receives `v` (R8, R64, R65). -/
def respond (v : HostObs) (s : State) : State := { s with busy := false, hostLog := s.hostLog ++ [v] }

/-- The 2-bit code of a fault reason (R155). -/
def faultCode : FaultReason → BitVec 2
  | .unconfigured => 0#2
  | .badLen => 1#2
  | .badCmd => 2#2
  | .hazard => 3#2

/-- `raise Fault(r)`: fault entry (R152). The only way out is hardware reset (R159). -/
def raiseFault (r : FaultReason) (s : State) : State :=
  { s with faulted := true, faultReason := r, busy := false }

/-- The Block's answer to a command: `run` if it accepts it; nothing happens in the faulted state (R152); a command
presented while one is in flight is a step the Host does not have (R64). -/
def onAccept (s : State) (run : Result) : Result :=
  if s.busy then .refused .commandWhileBusy
  else if s.faulted then .next s
  else run

/-- Accepting command `c`: `busy` and `cur_cmd` are set (R29, R64). -/
def accept (c : CmdKind) (s : State) : State := { s with busy := true, curCmd := c }

/-- The configuration check of SEND and POLL (R90, R100, R151). -/
def onConfigured (s : State) (run : Result) : Result :=
  if s.cfgValid then run else .next (raiseFault .unconfigured s)

/-! ### Micro-step rows (R69, R70) -/

/-- A row is performed only in a state that selects it. -/
def onRow (i : Instr) (s : State) (run : Result) : Result :=
  if s.selects i then run else .refused .rowNotSelected

/-- The return to H1 that a mismatch and the end of a frame share (R105, R107, R109). -/
def toH1 (s : State) : State := { s with rxState := .h1, rxCursor := 0#9 }

/-! ### The Host's accesses to REC (R40, R54, R154) -/

/-- A Host access to REC index `i`, with effect `t` when no command is in flight. -/
def onRecAccess (i : Nat) (s t : State) : Result :=
  if Config.recCap ≤ i then .fault .recIndexAbsent
  else if s.busy then .next (raiseFault .hazard s)
  else .next t

/-- The Host reads REC index `i`, and receives the byte. -/
def hostRead (i : Nat) (s : State) : Result :=
  onRecAccess i s { s with hostLog := s.hostLog ++ [.recByte i (s.recMem.read i)] }

/-- The Host writes `v` to REC index `i`. -/
def hostWrite (i : Nat) (v : Byte) (s : State) : Result :=
  onRecAccess i s { s with recMem := s.recMem.write i v }

/-! ### Hardware reset (R170, R171) -/

/-- The bytes of an unspecified scratch store: free values drawn at counter `n`. -/
def freeScr (n : Nat) : List Byte := (List.range Config.scrCap).map fun i => Config.freeByte (n + i)

/-- The scratch store after a hardware reset: every byte is free (R25, R34). -/
@[irreducible] def resetScr (n : Nat) : Memory := Memory.writeRange [] 0 (freeScr n)

/-- Hardware reset. The registers R34 gives a value take it, those R34 leaves unspecified take free values, and REC, the
streams and the other agents are untouched (R170). A command in flight is aborted with no response (R171). -/
def hwReset (s : State) : State :=
  { s with
    cfgValid := false
    cfgLen := 0#8
    rxState := .h1
    scr := resetScr s.freeCtr
    rxCursor := 0#9
    busy := false
    curCmd := Config.freeCmd s.freeCtr
    txK := Config.freeIndex s.freeCtr
    txCrc := Config.freeByte (s.freeCtr + Config.scrCap)
    faulted := false
    faultReason := Config.freeReason s.freeCtr
    freeCtr := s.freeCtr + Config.scrCap + 1 }

/-- The bytes of REC when a reset falls inside the copy of `new` into it: each index holds its old byte or its new one, a
free choice drawn at counter `n` (R171, U6). -/
def partialCopy (n : Nat) (m : Memory) (a : Nat) : List Byte → Memory
  | [] => m
  | v :: vs => partialCopy n (if Config.freeLanded (n + a) then m.write a v else m) (a + 1) vs

/-- Hardware reset inside the copy into REC (R171). There is such a copy only where the Block's next micro-step is
RX_PAY_LAST with a valid checksum; the bytes popped so far, the CRC byte among them, are gone. Elsewhere this is
`hwReset`. -/
def hwResetInCopy (s : State) : State :=
  match s.rx with
  | [] => hwReset s
  | b :: _ =>
    if s.selects (.rxPayLast b) && checksumOk s.crc8Fn s.payload b then
      hwReset { s.rxPop with recMem := partialCopy s.freeCtr s.recMem 0 (s.payload) }
    else hwReset s

end Sys2Proof.Machine
end

