-- ==== Sys2Proof/Machine/Receive.lean ====
section
/-! DEFINITION. The command POLL and the receive state machine (42_receive.md). A row that "continues" leaves the POLL in
flight; a row that responds ends it (R100, R111). -/

namespace Sys2Proof.Machine

/-- POLL (R100): accepted when configured. The micro-steps follow as steps of their own. -/
def execPoll (s : State) : Result :=
  onAccept s <| onConfigured s <| .next (accept .poll s)

/-- RX_EMPTY (R101): no byte is popped and no state is written. -/
def execRxEmpty (s : State) : Result :=
  onRow .rxEmpty s <| .next (respond (.ok false) s)

/-- RX_H1_SYNC (R102). -/
def execRxH1Sync (s : State) : Result :=
  onRow .rxH1Sync s <| .next { s.rxPop with rxState := .h2 }

/-- RX_H1_SKIP (R103). -/
def execRxH1Skip (b : Byte) (s : State) : Result :=
  onRow (.rxH1Skip b) s <| .next s.rxPop

/-- RX_H2_OK (R104). -/
def execRxH2Ok (s : State) : Result :=
  onRow .rxH2Ok s <| .next { s.rxPop with rxState := .len }

/-- RX_H2_BAD (R105): the byte is discarded, even when it is 0x06. -/
def execRxH2Bad (b : Byte) (s : State) : Result :=
  onRow (.rxH2Bad b) s <| .next (respond (.ok false) (toH1 s.rxPop))

/-- RX_LEN_OK (R106). -/
def execRxLenOk (b : Byte) (s : State) : Result :=
  onRow (.rxLenOk b) s <| .next { s.rxPop with rxState := .pay, rxCursor := 0#9 }

/-- RX_LEN_BAD (R107). -/
def execRxLenBad (b : Byte) (s : State) : Result :=
  onRow (.rxLenBad b) s <| .next (respond (.ok false) (toH1 s.rxPop))

/-- RX_PAY_STORE (R108). -/
def execRxPayStore (b : Byte) (s : State) : Result :=
  onRow (.rxPayStore b) s <|
    .next { s.rxPop with scr := s.scr.write s.rxCursor.toNat b, rxCursor := s.rxCursor + 1#9 }

/-- The copy of the payload into REC, in ascending order (R57, R109). -/
def copyToRec (s : State) : State := { s with recMem := s.recMem.writeRange 0 s.payload }

/-- The first half of RX_PAY_LAST: the CRC byte goes to `scr[N]`, and the cursor passes to N+1, which is 256 when N is 255
(R26, R109). -/
def storeCrc (b : Byte) (s : State) : State :=
  { s.rxPop with scr := s.scr.write s.recLen b, rxCursor := s.cfgLen.zeroExtend 9 + 1#9 }

/-- `crc8(scr[0..N)) == scr[N]` (R109). -/
def State.frameOk (s : State) : Bool := checksumOk s.crc8Fn s.payload (s.scr.read s.recLen)

/-- The second half of RX_PAY_LAST: the copy if the checksum is valid, and either way the return to H1 and the response. -/
def finishFrame (s : State) : State :=
  respond (.ok s.frameOk) (toH1 (if s.frameOk then copyToRec s else s))

/-- RX_PAY_LAST (R109). -/
def execRxPayLast (b : Byte) (s : State) : Result :=
  onRow (.rxPayLast b) s <| .next (finishFrame (storeCrc b s))

end Sys2Proof.Machine
end

