-- ==== Sys2Proof/Machine/Send.lean ====
section
/-! DEFINITION. The command SEND and its micro-steps (41_send.md). -/

namespace Sys2Proof.Machine

/-- SEND (R90): accepted when configured, it starts the sequence at `tx_k` 0 with the CRC's initial value, the checksum of no
bytes (0x00 for the default, R141). The micro-steps follow as steps of their own. -/
def execSend (s : State) : Result :=
  onAccept s <| onConfigured s <| .next { accept .send s with txK := 0#9, txCrc := s.crc8Fn.value [] }

/-- TX_HDR1 (R92). -/
def execTxHdr1 (s : State) : Result :=
  onRow .txHdr1 s <| txPush Config.hdr1 s { s with txK := 1#9 }

/-- TX_HDR2 (R93). -/
def execTxHdr2 (s : State) : Result :=
  onRow .txHdr2 s <| txPush Config.hdr2 s { s with txK := 2#9 }

/-- TX_LEN (R94): the sender's own `cfg_len`. -/
def execTxLen (s : State) : Result :=
  onRow .txLen s <| txPush s.cfgLen s { s with txK := 3#9 }

/-- TX_PAY (R95) at REC index `i` = `tx_k - 3`: the byte read is the byte pushed and the byte the CRC takes in. -/
def execTxPay (i : Byte) (s : State) : Result :=
  onRow (.txPay i) s <|
    txPush (s.recMem.read i.toNat) s
      { s with
        txCrc := s.crc8Fn.update (s.recMem.readRange 0 i.toNat) s.txCrc (s.recMem.read i.toNat)
        txK := s.txK + 1#9 }

/-- The end of the loop of R90: SEND responds `done`. -/
def sendDone (s : State) : State := respond .done s

/-- TX_CRC (R96): `tx_k` becomes N+4, so the loop of R90 ends and SEND responds (log entry 9). -/
def execTxCrc (s : State) : Result :=
  onRow .txCrc s <| txPush s.txCrc s (sendDone { s with txK := s.cfgLen.zeroExtend 9 + 4#9 })

end Sys2Proof.Machine
end

