-- ==== Sys2Proof/Machine/Setup.lean ====
section
/-! DEFINITION. The setup command BEGIN (40_setup.md). -/

namespace Sys2Proof.Machine

/-- The effect of R80 for a record length `n` other than 0, whether or not ETFD was configured before (R82). -/
def beginEffect (n : Byte) (s : State) : State :=
  { accept .begin s with
    scr := s.scr.writeRange 0 (List.replicate (n.toNat + 1) 0x00#8)
    cfgLen := n
    rxState := .h1
    rxCursor := 0#9
    cfgValid := true }

/-- BEGIN n (R80-R83): one indivisible micro-step. BEGIN 0 raises Fault(BAD_LEN) and changes nothing else (R81). -/
def execBegin (n : Byte) (s : State) : Result :=
  onAccept s <|
    if n = 0#8 then .next (raiseFault .badLen s) else .next (respond .done (beginEffect n s))

end Sys2Proof.Machine
end

