-- ==== Sys2Proof/Machine/Dispatch.lean ====
section
/-! DEFINITION. One arm per instruction. -/

namespace Sys2Proof.Machine

def exec (i : Instr) (s : State) : Host.Outcome State Fault Refusal :=
  match i with
  | .begin n => Sys2Proof.Machine.execBegin n s
  | .send => Sys2Proof.Machine.execSend s
  | .poll => Sys2Proof.Machine.execPoll s
  | .rxEmpty => Sys2Proof.Machine.execRxEmpty s
  | .rxH1Sync => Sys2Proof.Machine.execRxH1Sync s
  | .rxH1Skip b => Sys2Proof.Machine.execRxH1Skip b s
  | .rxH2Ok => Sys2Proof.Machine.execRxH2Ok s
  | .rxH2Bad b => Sys2Proof.Machine.execRxH2Bad b s
  | .rxLenOk b => Sys2Proof.Machine.execRxLenOk b s
  | .rxLenBad b => Sys2Proof.Machine.execRxLenBad b s
  | .rxPayStore b => Sys2Proof.Machine.execRxPayStore b s
  | .rxPayLast b => Sys2Proof.Machine.execRxPayLast b s
  | .txHdr1 => Sys2Proof.Machine.execTxHdr1 s
  | .txHdr2 => Sys2Proof.Machine.execTxHdr2 s
  | .txLen => Sys2Proof.Machine.execTxLen s
  | .txPay k => Sys2Proof.Machine.execTxPay k s
  | .txCrc => Sys2Proof.Machine.execTxCrc s

end Sys2Proof.Machine
end

