-- ==== Sys2Proof/Machine/Agents.lean ====
section
/-! DEFINITION. The steps of the agents (R5): the Block's micro-step, the Host's command, and the other agents' actions; and
the program notation of R72. -/

namespace Sys2Proof.Machine

/-- One micro-step of the Block. Idle, it holds its state (R164). With a command in flight it performs the row it decodes
(R69, R70, R100); a SEND whose `tx_k` has passed N+3 responds (the loop of R90 has ended). -/
def blockStep (s : State) : Result :=
  if s.busy then
    match s.fetched with
    | none => .refused .noRow
    | some f =>
      match decode s.rowCtx f with
      | .instr i => exec i s
      | .reject .noTransmitRow => .next (sendDone s)
      | .reject _ => .refused .noRow
  else .next s

/-- The Host presents command word `w` to an idle Block: nothing in the faulted state (R152), Fault(BAD_CMD) for a reserved
word (R153), before any other check (R157). -/
def presentCommand (w : Word10) (s : State) : Result :=
  if s.faulted then .next s
  else
    match decode s.rowCtx (.cmd w) with
    | .instr i => exec i s
    | .reject _ => .next (raiseFault .badCmd s)

/-- One step of the agent whose turn it is. That the TX sink removes a byte whether or not it is ready, and that a removal
from an empty stream changes nothing, are DESIGN CHOICES (log entry 22). -/
def agentStep (a : AgentMove) (s : State) : Result :=
  match a with
  | .issue w => presentCommand w s
  | .await => .next s
  | .hostRead i => hostRead i s
  | .hostWrite i v => hostWrite i v s
  | .rxAppend bs => .next { s with rx := s.rx ++ bs }
  | .txReady r => .next { s with txReady := r }
  | .txTake => .next { s with tx := s.tx.tail }
  | .block => blockStep s
  | .hwReset => .next (hwReset s)
  | .hwResetInCopy => .next (hwResetInCopy s)

/-- The Host waits at this action while a command is in flight (R64, R72). -/
def AgentMove.waits : AgentMove → Bool
  | .issue _ => true
  | .await => true
  | _ => false

/-- The next step of the machine: the first action of the schedule, which is then gone from it. While the Host waits at it,
and when the schedule is empty, the Block moves (log entry 4). -/
def agendaStep (s : State) : Result :=
  match s.schedule with
  | [] => blockStep s
  | a :: rest => if a.waits && s.busy then blockStep s else agentStep a (s.withAgenda rest)

/-- A line of the program notation (R72); comments have no meaning. -/
inductive Line where
  | rx (bs : List Byte)
  | begin (n : Byte)
  | send
  | poll
  | hostw (i : Nat) (v : Byte)
  | txReady
deriving DecidableEq, Repr

/-- The actions of a line: a command line waits for its response before the next line starts (R72). -/
def Line.actions : Line → List AgentMove
  | .rx bs => [.rxAppend bs]
  | .begin n => [.issue (word10 0b01#2 n), .await]
  | .send => [.issue 0x200#10, .await]
  | .poll => [.issue 0x300#10, .await]
  | .hostw i v => [.hostWrite i v]
  | .txReady => [.txReady true]

/-- A program in the notation of R72, as an agenda. -/
def programAgenda (ls : List Line) : List AgentMove := ls.flatMap Line.actions

/-- The state in which the very next step decodes `f` under the registers `c` and runs what it decodes: the Block is idle,
or has the command in flight that looks at a word of that format, and the agenda's first action is the one that decodes
it. -/
def placeFetched (c : RowCtx) (f : Fetched) (s : State) : State :=
  match f with
  | .cmd w => { s with busy := false, faulted := false, agenda := .issue w :: s.agenda }
  | .noByte =>
    { s with busy := true, faulted := false, curCmd := .poll, rx := [], agenda := .block :: s.agenda }
  | .rxd w =>
    { s with
      busy := true, faulted := false, curCmd := .poll, cfgValid := true, cfgLen := c.cfgLen, rxCursor := c.cursor,
      rxState := RxState.ofCode (hiField w), rx := loField w :: s.rx, agenda := .block :: s.agenda }
  | .txk k =>
    { s with
      busy := true, faulted := false, curCmd := .send, cfgValid := true, cfgLen := c.cfgLen,
      txReady := true, txK := k, agenda := .block :: s.agenda }

end Sys2Proof.Machine
end

