-- ==== Sys2Proof/Machine/Step.lean ====
section
/-! DEFINITION. The step of the machine, and where the host places the next instruction. -/

namespace Sys2Proof.Machine

/-- One step of one agent (R5, R52, R110). -/
def step (s : State) : Host.Outcome State Fault Refusal := agendaStep s

/-- `s` with the table word `w` placed where the very next step decodes and runs it (log entries 16 and 17). A word that is
no word of the table leaves `s` as it is. -/
def State.withFetchWord (s : State) (nbits w : Nat) : State :=
  match tableFetched nbits w with
  | none => s
  | some f => placeFetched (tableCtx w) f s

end Sys2Proof.Machine
end

