-- ==== Sys2Proof/Safety.lean ====
section
/-! DEFINITION. The terms claims are made in: runs, the states a run can be in, the frame image (R66), and the receive
transition as a function on bytes (R113). -/

namespace Sys2Proof.Machine

/-- `k` steps of the machine (`Host.Core.run` of the core, in a form of its own for proofs). -/
def runSteps : Nat → State → Result
  | 0, s => .next s
  | k + 1, s =>
    match step s with
    | .next t => runSteps k t
    | .fault r => .fault r
    | .refused r => .refused r

/-- A state counts as a good end of a run only if no fault is recorded in it (R152). -/
def Safe (s : State) : Prop := s.faulted = false

/-- A run of `k` steps from `s` that ends safely in `t` (R152). -/
def SafeRun (k : Nat) (s t : State) : Prop := runSteps k s = .next t ∧ Safe t

/-- The Block can accept a command: idle and not faulted (R64). -/
def Accepting (s : State) : Prop := s.busy = false ∧ s.faulted = false

/-- A POLL is in flight. -/
def Polling (s : State) : Prop := s.busy = true ∧ s.curCmd = .poll

/-- A SEND is in flight. -/
def Sending (s : State) : Prop := s.busy = true ∧ s.curCmd = .send

/-- No agent but the Block acts while a command is in flight: the schedule is empty, or the Host waits at its head. -/
def Undisturbed (s : State) : Prop := ∀ a, s.schedule.head? = some a → a.waits = true

/-- What holds of the machine between any two steps. -/
structure Coherent (s : State) : Prop where
  /-- REC is in canonical form. -/
  recWf : s.recMem.wf = true
  /-- REC has no index that no record has (R40). -/
  recBelow : s.recMem.below Config.recCap = true
  /-- The scratch store is in canonical form. -/
  scrWf : s.scr.wf = true
  /-- The scratch store has `SCR_CAP` bytes (R25). -/
  scrBelow : s.scr.below Config.scrCap = true
  /-- Outside PAY the cursor is 0 (R27). -/
  cursorZero : s.rxState ≠ .pay → s.rxCursor = 0#9
  /-- Between micro-steps the cursor is in 0..N (R26). -/
  cursorBound : s.rxCursor.toNat ≤ s.recLen
  /-- A configured length is legal (R23, R81). -/
  configured : s.cfgValid = true → s.cfgLen ≠ 0#8
  /-- Before BEGIN the registers are as reset leaves them (R34). -/
  unconfigured : s.cfgValid = false → s.cfgLen = 0#8 ∧ s.rxState = .h1
  /-- Only a configured Block has a command in flight between steps (R151). -/
  busyConfigured : s.busy = true → s.cfgValid = true
  /-- A fault ends the command in flight (R152). -/
  busyUnfaulted : s.busy = true → s.faulted = false
  /-- BEGIN is never in flight between steps: it is one indivisible micro-step (R80). -/
  busyCommand : s.busy = true → s.curCmd ≠ .begin
  /-- `tx_k` of a SEND in flight is in 0..N+3 (R30). -/
  sendIndex : Sending s → s.txK.toNat < s.frameLen
  /-- The running CRC of a SEND is the checksum of the REC bytes it has sent (R30, R96). -/
  sendCrc : Sending s → s.txCrc = s.crc8Fn.value (s.recMem.readRange 0 (s.txK.toNat - 3))

/-- The record: REC indices 0 to N-1 (R40). -/
def State.record (s : State) : List Byte := s.recMem.readRange 0 s.recLen

/-- The frame image of a record of N bytes, with the checksum function `f` (R66, R98). -/
def frameOf (f : Checksum) (n : Byte) (payload : List Byte) : List Byte :=
  [0x06#8, 0x85#8, n] ++ payload ++ [f.value payload]

/-- What the receive rows act on: the registers of R113, REC, and how many POLLs have responded true. -/
structure Receiver where
  state : RxState
  cursor : Nat
  scr : Memory
  recMem : Memory
  trues : Nat
deriving DecidableEq, Repr

/-- The receive side of a machine state. -/
def State.receiver (s : State) : Receiver :=
  { state := s.rxState, cursor := s.rxCursor.toNat, scr := s.scr, recMem := s.recMem
    trues := s.hostLog.count (.ok true) }

/-- The receive transition summary as a function of one byte (R113). -/
def rxStep (f : Checksum) (n : Nat) (r : Receiver) (b : Byte) : Receiver :=
  match r.state with
  | .h1 => if b = 0x06#8 then { r with state := .h2, cursor := 0 } else { r with state := .h1, cursor := 0 }
  | .h2 => if b = 0x85#8 then { r with state := .len, cursor := 0 } else { r with state := .h1, cursor := 0 }
  | .len => if b.toNat = n then { r with state := .pay, cursor := 0 } else { r with state := .h1, cursor := 0 }
  | .pay =>
    if r.cursor < n then { r with cursor := r.cursor + 1, scr := r.scr.write r.cursor b }
    else if f.value (r.scr.readRange 0 n) = b then
      { state := .h1, cursor := 0, scr := r.scr.write n b
        recMem := r.recMem.writeRange 0 (r.scr.readRange 0 n), trues := r.trues + 1 }
    else { r with state := .h1, cursor := 0, scr := r.scr.write n b }

/-- The outcome column of the summary (R113): the response that ends the POLL, or none where the POLL continues. -/
def rxOutcome (f : Checksum) (n : Nat) (r : Receiver) (b : Byte) : Option Bool :=
  match r.state with
  | .h1 => none
  | .h2 => if b = 0x85#8 then none else some false
  | .len => if b.toNat = n then none else some false
  | .pay => if r.cursor < n then none else some (decide (f.value (r.scr.readRange 0 n) = b))

/-- The left fold of `rxStep` over a byte sequence (R117). -/
def parse (f : Checksum) (n : Nat) (r : Receiver) (bs : List Byte) : Receiver := bs.foldl (rxStep f n) r

/-- The bytes that the RX source appends in the next step. -/
def State.arriving (s : State) : List Byte :=
  match s.schedule with
  | .rxAppend bs :: _ => bs
  | _ => []

/-- The bytes that the RX source appends in the next `k` steps. -/
def arrived : Nat → State → List Byte
  | 0, _ => []
  | k + 1, s =>
    s.arriving ++
      match step s with
      | .next t => arrived k t
      | .fault _ => []
      | .refused _ => []

/-- An action that neither configures nor resets the Block nor writes REC: any other command word, any move of the Block,
the RX source or the TX sink, and the Host's waits and reads. -/
def AgentMove.leavesReceiver : AgentMove → Bool
  | .issue w => hiField w != 0b01#2
  | .hostWrite _ _ => false
  | .hwReset => false
  | .hwResetInCopy => false
  | _ => true

end Sys2Proof.Machine
end

