-- ==== Sys2Proof/WellFormed.lean ====
section
/-! DEFINITION. Which instructions are well formed: the operand of a row lies in the range the row's condition gives it,
under the registers `c` that the condition reads (R69, R70). -/

namespace Sys2Proof

/-- The operand conditions of the rows. Every command is well formed: BEGIN 0 is valid as an encoding (R63). -/
def WellFormed (c : RowCtx) : Instr → Bool
  | .begin _ => true
  | .send => true
  | .poll => true
  | .rxEmpty => true
  | .rxH1Sync => true
  | .rxH1Skip b => b != Config.hdr1
  | .rxH2Ok => true
  | .rxH2Bad b => b != Config.hdr2
  | .rxLenOk b => b == c.cfgLen
  | .rxLenBad b => b != c.cfgLen
  | .rxPayStore _ => decide (c.cursor.toNat < c.cfgLen.toNat)
  | .rxPayLast _ => decide (c.cursor.toNat = c.cfgLen.toNat)
  | .txHdr1 => true
  | .txHdr2 => true
  | .txLen => true
  | .txPay i => decide (i.toNat < c.cfgLen.toNat)
  | .txCrc => true

end Sys2Proof
end

