-- ==== Sys2Proof/Certificates/Slice0/Obligations.lean ====
section
/-! DEFINITION. The statements about the model. Rules are cited as R<n>; a docstring names the log entry or the decision
D<n> of 92_eei_decisions.md where a clause rests on one. -/

open Sys2Proof Sys2Proof.Machine

/-! ### Encodings -/

/-- R61, R69, R70: no bit of an encoding is dropped. -/
def Obligations.DecodeInvertsEncode : Prop :=
  ∀ (c : RowCtx) (i : Instr), WellFormed c i = true → decode c (encode c i) = .instr i

/-- R61, R69, R70: what decodes to an instruction is that instruction's encoding, and the instruction is well formed. -/
def Obligations.EncodeInvertsDecode : Prop :=
  ∀ (c : RowCtx) (f : Fetched) (i : Instr), decode c f = .instr i → encode c i = f ∧ WellFormed c i = true

/-- Words written out from the patterns of R61, R69 and R70 decode to the instructions they stand for. -/
def Obligations.WrittenWordsDecode : Prop :=
  ∀ c : RowCtx, c = { cfgLen := 0x03#8, cursor := 1#9 } →
    decode c (.cmd 0b0100000011#10) = .instr (.begin 3#8) ∧
    decode c (.cmd 0b1000000000#10) = .instr .send ∧
    decode c (.cmd 0b1100000000#10) = .instr .poll ∧
    decode c .noByte = .instr .rxEmpty ∧
    decode c (.rxd 0b0000000110#10) = .instr .rxH1Sync ∧
    decode c (.rxd 0b0010000101#10) = .instr (.rxH1Skip 0x85#8) ∧
    decode c (.rxd 0b0110000101#10) = .instr .rxH2Ok ∧
    decode c (.rxd 0b0100000110#10) = .instr (.rxH2Bad 0x06#8) ∧
    decode c (.rxd 0b1000000011#10) = .instr (.rxLenOk 0x03#8) ∧
    decode c (.rxd 0b1000000100#10) = .instr (.rxLenBad 0x04#8) ∧
    decode c (.rxd 0b1100010001#10) = .instr (.rxPayStore 0x11#8) ∧
    decode { c with cursor := 3#9 } (.rxd 0b1111010100#10) = .instr (.rxPayLast 0xD4#8) ∧
    decode c (.txk 0b000000000#9) = .instr .txHdr1 ∧
    decode c (.txk 0b000000001#9) = .instr .txHdr2 ∧
    decode c (.txk 0b000000010#9) = .instr .txLen ∧
    decode c (.txk 0b000000101#9) = .instr (.txPay 2#8) ∧
    decode c (.txk 0b000000110#9) = .instr .txCrc

/-- The match and mask patterns of R61, and the number of reserved words of R63. -/
def Obligations.CommandWordsMatchPatterns : Prop :=
  (∀ w : Word10, w &&& 0x300#10 = 0x100#10 → decodeCmd w = .instr (.begin (loField w))) ∧
  (∀ w : Word10, w &&& 0x3FF#10 = 0x200#10 → decodeCmd w = .instr .send) ∧
  (∀ w : Word10, w &&& 0x3FF#10 = 0x300#10 → decodeCmd w = .instr .poll) ∧
  ((List.range 1024).filter fun w => (decodeCmd (BitVec.ofNat 10 w)).toOption == none).length = 766

/-- R69: where the cursor is in its range (R26) every receive decode word selects a row. -/
def Obligations.ReceiveTableTotal : Prop :=
  ∀ (c : RowCtx) (w : Word10), c.cursor.toNat ≤ c.cfgLen.toNat → ∃ i, decode c (.rxd w) = .instr i

/-- R24 and R155: the codes (decisions D8, D36). -/
def Obligations.StateAndFaultCodes : Prop :=
  RxState.h1.code = 0b00#2 ∧ RxState.h2.code = 0b01#2 ∧ RxState.len.code = 0b10#2 ∧ RxState.pay.code = 0b11#2 ∧
  faultCode .unconfigured = 0#2 ∧ faultCode .badLen = 1#2 ∧ faultCode .badCmd = 2#2 ∧ faultCode .hazard = 3#2

/-! ### A step runs the decoded instruction -/

/-- A command word presented to an idle, unfaulted Block: the step is exec of what it decodes to, with the action gone from
the schedule (R64; the schedule is the model's, log entry 4). -/
def Obligations.StepRunsDecodedCommand : Prop :=
  ∀ (s : State) (w : Word10) (rest : List AgentMove) (i : Instr),
    Accepting s → s.schedule = .issue w :: rest → decode s.rowCtx (.cmd w) = .instr i →
    step s = exec i (s.withAgenda rest)

/-- With a command in flight, the step is exec of the row the Block decodes from what it looks at (R69, R70, R100): with the
schedule as it is where no other agent acts, and at a `block` action with that action gone (log entry 4). -/
def Obligations.StepRunsDecodedRow : Prop :=
  ∀ (s : State) (f : Fetched) (i : Instr), s.fetched = some f → decode s.rowCtx f = .instr i →
    (Undisturbed s → step s = exec i s) ∧
    (∀ rest, s.schedule = .block :: rest → step s = exec i (s.withAgenda rest))

/-- A table word placed by `withFetchWord` is what the very next step runs (log entries 16 and 17). -/
def Obligations.PlacedTableWordRuns : Prop :=
  ∀ (s : State) (nbits w : Nat) (i : Instr), decodeTableWord nbits w = some i →
    step (s.withFetchWord nbits w) = exec i ((s.withFetchWord nbits w).withAgenda s.agenda)

/-! ### The commands -/

/-- R80 and R82: BEGIN n for n other than 0, configured before or not. Scratch bytes 0 to n become 0 and the others stay;
every register not named is unchanged (R30 and R164 say so of `tx_k` and `tx_crc`: log entry 11). Acceptance and effect are
one step (log entry 5). -/
def Obligations.BeginConfigures : Prop :=
  ∀ (s : State) (n : Byte), Accepting s → s.scr.wf = true → n ≠ 0#8 →
    ∃ t, exec (.begin n) s = .next t ∧
      t = { s with
        cfgValid := true, cfgLen := n, rxState := .h1, rxCursor := 0#9, scr := t.scr, curCmd := .begin
        hostLog := s.hostLog ++ [.done] } ∧
      (∀ i, i ≤ n.toNat → t.scr.read i = 0x00#8) ∧
      (∀ i, n.toNat < i → t.scr.read i = s.scr.read i)

/-- R81 (decision D11): BEGIN 0 raises Fault(BAD_LEN) and changes no other state. -/
def Obligations.BeginZeroFaults : Prop :=
  ∀ s : State, Accepting s → exec (.begin 0#8) s = .next { s with faulted := true, faultReason := .badLen }

/-- R90, R64: SEND is accepted when configured, and starts at `tx_k` 0 with the CRC's initial value, 0x00 for the default
CRC8 and the checksum of no bytes for any (log entry 14); nothing else changes. Acceptance and check are one step (log entry
5). -/
def Obligations.SendStarts : Prop :=
  ∀ s : State, Accepting s → s.cfgValid = true →
    exec .send s = .next { s with busy := true, curCmd := .send, txK := 0#9, txCrc := s.crc8Fn.value [] } ∧
    (s.crc8Fn = .smbus → s.crc8Fn.value [] = 0x00#8)

/-- R100, R64: POLL is accepted when configured; nothing else changes. Acceptance and check are one step (log entry 5). -/
def Obligations.PollStarts : Prop :=
  ∀ s : State, Accepting s → s.cfgValid = true → exec .poll s = .next { s with busy := true, curCmd := .poll }

/-- R151 (decision D10): before the first BEGIN, SEND and POLL change nothing but the fault bits. -/
def Obligations.UnconfiguredCommandsFault : Prop :=
  ∀ (s : State) (i : Instr), i = .send ∨ i = .poll → Accepting s → s.cfgValid = false →
    exec i s = .next { s with faulted := true, faultReason := .unconfigured }

/-- R63, R153, R157 (decisions D3, D31): a reserved word changes nothing but the fault bits, configured or not. -/
def Obligations.ReservedWordsFault : Prop :=
  ∀ (s : State) (w : Word10) (rest : List AgentMove), Accepting s → s.schedule = .issue w :: rest →
    hiField w = 0b00#2 ∨ hiField w = 0b10#2 ∧ loField w ≠ 0x00#8 ∨ hiField w = 0b11#2 ∧ loField w ≠ 0x00#8 →
    step s = .next { s with faulted := true, faultReason := .badCmd, agenda := rest }

/-- R152: in the faulted state no command is accepted, and presenting one changes nothing (log entry 6); a command executed
while another is in flight is a step the Host does not have, and is refused by name (R64; log entry 7). -/
def Obligations.CommandsTurnedAway : Prop :=
  ∀ (s : State) (i : Instr), i = .send ∨ i = .poll ∨ (∃ n, i = .begin n) →
    (s.busy = false → s.faulted = true → exec i s = .next s) ∧
    (s.busy = true → exec i s = .refused .commandWhileBusy)

/-- R69, R70: a micro-step row that the state does not select is refused by name (log entry 8). -/
def Obligations.UnselectedRowsRefused : Prop :=
  ∀ (s : State) (i : Instr), i ≠ .send → i ≠ .poll → (∀ n, i ≠ .begin n) → s.selects i = false →
    exec i s = .refused .rowNotSelected

/-! ### The receive rows -/

/-- R101: with no byte available POLL responds false, in every state; no byte is popped and no state is written. -/
def Obligations.EmptyStreamRespondsFalse : Prop :=
  ∀ s : State, Polling s → s.rx = [] →
    decode s.rowCtx .noByte = .instr .rxEmpty ∧
    exec .rxEmpty s = .next { s with busy := false, hostLog := s.hostLog ++ [.ok false] }

/-- R102: the header-1 byte is consumed and the next state is H2; the POLL continues. -/
def Obligations.Header1Found : Prop :=
  ∀ (s : State) (rest : List Byte), Polling s → s.rxState = .h1 → s.rx = 0x06#8 :: rest →
    s.rxd 0x06#8 = 0x006#10 ∧
    decode s.rowCtx (.rxd (s.rxd 0x06#8)) = .instr .rxH1Sync ∧
    exec .rxH1Sync s = .next { s with rx := rest, rxState := .h2 } ∧
    (Coherent s → s.rxCursor = 0#9)

/-- R103: any other byte is discarded in H1, 0x85 among them; the POLL continues. -/
def Obligations.JunkSkipped : Prop :=
  ∀ (s : State) (b : Byte) (rest : List Byte), Polling s → s.rxState = .h1 → s.rx = b :: rest → b ≠ 0x06#8 →
    s.rxd b &&& 0x300#10 = 0x000#10 ∧
    decode s.rowCtx (.rxd (s.rxd b)) = .instr (.rxH1Skip b) ∧
    exec (.rxH1Skip b) s = .next { s with rx := rest }

/-- R104: the header-2 byte is consumed and the next state is LEN; the POLL continues. -/
def Obligations.Header2Found : Prop :=
  ∀ (s : State) (rest : List Byte), Polling s → s.rxState = .h2 → s.rx = 0x85#8 :: rest →
    s.rxd 0x85#8 = 0x185#10 ∧
    decode s.rowCtx (.rxd (s.rxd 0x85#8)) = .instr .rxH2Ok ∧
    exec .rxH2Ok s = .next { s with rx := rest, rxState := .len } ∧
    (Coherent s → s.rxCursor = 0#9)

/-- R105, R178 (decision D21): any other byte in H2, 0x06 among them, is discarded; the POLL responds false in H1 and the
bytes after it stay. -/
def Obligations.BadHeader2Resynchronises : Prop :=
  ∀ (s : State) (b : Byte) (rest : List Byte), Polling s → s.rxState = .h2 → s.rx = b :: rest → b ≠ 0x85#8 →
    decode s.rowCtx (.rxd (s.rxd b)) = .instr (.rxH2Bad b) ∧
    exec (.rxH2Bad b) s = .next { s with
      rx := rest, rxState := .h1, rxCursor := 0#9, busy := false, hostLog := s.hostLog ++ [.ok false] }

/-- R106: a length byte equal to `cfg_len` moves to PAY with the cursor at 0; the POLL continues. In a state a run can be
in, a length byte 0x00 never matches. -/
def Obligations.LengthAccepted : Prop :=
  ∀ (s : State) (rest : List Byte), Polling s → s.rxState = .len → s.rx = s.cfgLen :: rest →
    s.rxd s.cfgLen = 0x200#10 ||| s.cfgLen.zeroExtend 10 ∧
    decode s.rowCtx (.rxd (s.rxd s.cfgLen)) = .instr (.rxLenOk s.cfgLen) ∧
    exec (.rxLenOk s.cfgLen) s = .next { s with rx := rest, rxState := .pay, rxCursor := 0#9 } ∧
    (Coherent s → s.cfgLen ≠ 0x00#8)

/-- R107: any other length byte is discarded; the POLL responds false in H1 and the bytes after it stay. -/
def Obligations.BadLengthResynchronises : Prop :=
  ∀ (s : State) (b : Byte) (rest : List Byte), Polling s → s.rxState = .len → s.rx = b :: rest → b ≠ s.cfgLen →
    decode s.rowCtx (.rxd (s.rxd b)) = .instr (.rxLenBad b) ∧
    exec (.rxLenBad b) s = .next { s with
      rx := rest, rxState := .h1, rxCursor := 0#9, busy := false, hostLog := s.hostLog ++ [.ok false] }

/-- R108: a payload byte of any value goes to `scr[rx_cursor]` and the cursor moves on by one, at most to `cfg_len`; every
other scratch byte reads as before, and nothing else changes. -/
def Obligations.PayloadByteStored : Prop :=
  ∀ (s : State) (b : Byte) (rest : List Byte), Polling s → s.rxState = .pay → s.rx = b :: rest →
    s.rxCursor.toNat < s.recLen → s.scr.wf = true →
    decode s.rowCtx (.rxd (s.rxd b)) = .instr (.rxPayStore b) ∧
    ∃ t, exec (.rxPayStore b) s = .next t ∧
      t = { s with rx := rest, scr := t.scr, rxCursor := t.rxCursor } ∧
      t.rxCursor.toNat = s.rxCursor.toNat + 1 ∧ t.rxCursor.toNat ≤ s.recLen ∧
      t.scr.read s.rxCursor.toNat = b ∧
      (∀ a, a ≠ s.rxCursor.toNat → t.scr.read a = s.scr.read a)

/-- R109: the CRC byte goes to `scr[N]`; the POLL responds whether it equals the checksum of `scr[0..N)`; only then is the
payload copied to REC indices 0 to N-1. Either way the receiver is in H1 with cursor 0. The checksum is the instance's
function CRC8, whatever it is (R143). -/
def Obligations.FrameCompleted : Prop :=
  ∀ (s : State) (b : Byte) (rest : List Byte), Polling s → s.rxState = .pay → s.rx = b :: rest →
    s.rxCursor.toNat = s.recLen → s.scr.wf = true → s.recMem.wf = true →
    decode s.rowCtx (.rxd (s.rxd b)) = .instr (.rxPayLast b) ∧
    ∃ t ok, exec (.rxPayLast b) s = .next t ∧
      ok = decide (s.crc8Fn.value (s.scr.readRange 0 s.recLen) = b) ∧
      t = { s with
        rx := rest, scr := t.scr, recMem := t.recMem, rxState := .h1, rxCursor := 0#9, busy := false
        hostLog := s.hostLog ++ [.ok ok] } ∧
      t.scr.read s.recLen = b ∧
      (∀ a, a ≠ s.recLen → t.scr.read a = s.scr.read a) ∧
      (ok = true → ∀ a, a < s.recLen → t.recMem.read a = s.scr.read a) ∧
      (ok = true → ∀ a, s.recLen ≤ a → t.recMem.read a = s.recMem.read a) ∧
      (ok = false → t.recMem = s.recMem)

/-! ### The transmit rows -/

/-- R92: 0x06 is pushed when the sink is ready; else the micro-step holds (R91, decision D17), and nothing changes (log entry
10). -/
def Obligations.Header1Sent : Prop :=
  ∀ s : State, Sending s → s.txK = 0#9 →
    decode s.rowCtx (.txk s.txK) = .instr .txHdr1 ∧
    (s.txReady = true → exec .txHdr1 s = .next { s with txK := 1#9, tx := s.tx ++ [0x06#8] }) ∧
    (s.txReady = false → exec .txHdr1 s = .next s)

/-- R93: 0x85 is pushed when the sink is ready; else the micro-step holds (R91, decision D17; log entry 10). -/
def Obligations.Header2Sent : Prop :=
  ∀ s : State, Sending s → s.txK = 1#9 →
    decode s.rowCtx (.txk s.txK) = .instr .txHdr2 ∧
    (s.txReady = true → exec .txHdr2 s = .next { s with txK := 2#9, tx := s.tx ++ [0x85#8] }) ∧
    (s.txReady = false → exec .txHdr2 s = .next s)

/-- R94: the LEN byte is the sender's own `cfg_len`, a header value among them; with the hold of R91 (log entry 10). -/
def Obligations.LengthSent : Prop :=
  ∀ s : State, Sending s → s.txK = 2#9 →
    decode s.rowCtx (.txk s.txK) = .instr .txLen ∧
    (s.txReady = true → exec .txLen s = .next { s with txK := 3#9, tx := s.tx ++ [s.cfgLen] }) ∧
    (s.txReady = false → exec .txLen s = .next s)

/-- R95: REC byte `tx_k - 3` is pushed unchanged and taken into the running CRC, and `tx_k` moves on; with the hold of R91
(log entry 10). With the default CRC8 the running CRC becomes `crc8_update` of itself and the byte; with any (R143), it is,
in a state a run can be in, the checksum of the REC bytes sent so far, this one included (log entry 14). -/
def Obligations.PayloadByteSent : Prop :=
  ∀ (s : State) (i : Byte), Sending s → s.txK.toNat = i.toNat + 3 → i.toNat < s.recLen →
    decode s.rowCtx (.txk s.txK) = .instr (.txPay i) ∧
    (s.txReady = true → ∃ t, exec (.txPay i) s = .next t ∧
      t = { s with txK := s.txK + 1#9, txCrc := t.txCrc, tx := s.tx ++ [s.recMem.read i.toNat] } ∧
      t.txK.toNat = s.txK.toNat + 1 ∧
      (s.crc8Fn = .smbus → t.txCrc = crc8Update s.txCrc (s.recMem.read i.toNat)) ∧
      (Coherent s → t.txCrc = s.crc8Fn.value (s.recMem.readRange 0 (i.toNat + 1)))) ∧
    (s.txReady = false → exec (.txPay i) s = .next s)

/-- R96: the running CRC is pushed, `tx_k` becomes N+4 and SEND responds `done`; with the hold of R91 (log entry 10). That
push and response are one step is the model's choice (log entry 9). In a state a run can be in, the byte pushed is the
checksum of REC indices 0 to N-1. -/
def Obligations.ChecksumSent : Prop :=
  ∀ s : State, Sending s → s.txK.toNat = s.recLen + 3 →
    decode s.rowCtx (.txk s.txK) = .instr .txCrc ∧
    (s.txReady = true → ∃ t, exec .txCrc s = .next t ∧ t.txK.toNat = s.recLen + 4 ∧
      t = { s with txK := t.txK, tx := s.tx ++ [s.txCrc], busy := false, hostLog := s.hostLog ++ [.done] }) ∧
    (s.txReady = false → exec .txCrc s = .next s) ∧
    (Coherent s → s.txCrc = s.crc8Fn.value s.record)

/-! ### Faults, the Host's accesses, reset -/

/-- R154, R152 (decision D18): a Host access to REC while a command is in flight raises Fault(HAZARD); no byte is returned
and none is stored, and the command is abandoned. That indices N to 254 count as REC is the model's choice (log entry 15). -/
def Obligations.RecAccessWhileBusyFaults : Prop :=
  ∀ (s : State) (a : AgentMove) (rest : List AgentMove) (i : Nat),
    s.busy = true → i < 255 → a = .hostRead i ∨ (∃ v, a = .hostWrite i v) → s.schedule = a :: rest →
    step s = .next { s with faulted := true, faultReason := .hazard, busy := false, agenda := rest }

/-- R175: between commands the Host reads and writes REC freely: a write changes that byte alone. That every index below 255
counts as REC, whatever N is, is the model's choice (log entry 15). -/
def Obligations.IdleRecAccess : Prop :=
  ∀ (s : State) (rest : List AgentMove) (i : Nat) (v : Byte), s.busy = false → i < 255 → s.recMem.wf = true →
    (s.schedule = .hostRead i :: rest →
      step s = .next { s with hostLog := s.hostLog ++ [.recByte i (s.recMem.read i)], agenda := rest }) ∧
    (s.schedule = .hostWrite i v :: rest →
      ∃ t, step s = .next t ∧ t = { s with recMem := t.recMem, agenda := rest } ∧ t.recMem.read i = v ∧
        ∀ a, a ≠ i → t.recMem.read a = s.recMem.read a)

/-- R42, R43: the RX source appends at the tail of the receive stream, the TX sink removes from the head of the transmit
stream, ready or not (log entry 22), and sets its own readiness (R91), and none of them touches anything else. The actions
are the model's (log entry 4). -/
def Obligations.TransportActions : Prop :=
  ∀ (s : State) (rest : List AgentMove) (bs : List Byte) (b : Byte) (r : Bool),
    (s.schedule = .rxAppend bs :: rest → step s = .next { s with rx := s.rx ++ bs, agenda := rest }) ∧
    (s.schedule = .txTake :: rest → s.tx = b :: bs → step s = .next { s with tx := bs, agenda := rest }) ∧
    (s.schedule = .txReady r :: rest → step s = .next { s with txReady := r, agenda := rest })

/-- R152, R159 (decision D25): in the faulted state only hardware reset clears the fault, no command has any effect, and the
Block's registers stay as they are (`cur_cmd`, `tx_k` and `tx_crc` too: log entry 11). -/
def Obligations.FaultIsSticky : Prop :=
  ∀ s t : State, Coherent s → s.faulted = true → step s = .next t →
    (∀ rest, s.schedule ≠ .hwReset :: rest) → (∀ rest, s.schedule ≠ .hwResetInCopy :: rest) →
    t.faulted = true ∧ t.faultReason = s.faultReason ∧ t.busy = false ∧ t.cfgValid = s.cfgValid ∧
    t.cfgLen = s.cfgLen ∧ t.rxState = s.rxState ∧ t.rxCursor = s.rxCursor ∧ t.scr = s.scr ∧
    t.txK = s.txK ∧ t.txCrc = s.txCrc ∧ t.curCmd = s.curCmd

/-- R34, R170: the values the spec gives for reset, at `State.reset` and after a reset during a run; a reset during a run
leaves REC and both streams as they are and gives no response (R171). The values that the spec leaves unspecified are not
stated. -/
def Obligations.ResetValues : Prop :=
  (State.reset.cfgValid = false ∧ State.reset.cfgLen = 0#8 ∧ State.reset.rxState = .h1 ∧ State.reset.rxCursor = 0#9 ∧
    State.reset.busy = false ∧ State.reset.faulted = false) ∧
  (∀ (s : State) (rest : List AgentMove), s.schedule = .hwReset :: rest → ∃ t, step s = .next t ∧
    t.cfgValid = false ∧ t.cfgLen = 0#8 ∧ t.rxState = .h1 ∧ t.rxCursor = 0#9 ∧ t.busy = false ∧ t.faulted = false ∧
    t.recMem = s.recMem ∧ t.rx = s.rx ∧ t.tx = s.tx ∧ t.txReady = s.txReady ∧ t.hostLog = s.hostLog ∧
    t.crc8Fn = s.crc8Fn ∧ t.agenda = rest ∧ t.cycle = s.cycle)

/-- R171 (decision D32; log entry 13): after a reset inside the copy each REC byte is the old one, or the payload's byte where
the copy of a valid frame was the Block's next micro-step; no response is given and the transmit stream stays. -/
def Obligations.ResetInsideCopyMixesRecord : Prop :=
  ∀ (s t : State) (rest : List AgentMove), s.recMem.wf = true → s.schedule = .hwResetInCopy :: rest → step s = .next t →
    t.busy = false ∧ t.faulted = false ∧ t.cfgValid = false ∧ t.hostLog = s.hostLog ∧ t.tx = s.tx ∧
    ∀ a, t.recMem.read a = s.recMem.read a ∨
      (a < s.recLen ∧ Polling s ∧ s.rxState = .pay ∧ s.rxCursor.toNat = s.recLen ∧
        (∃ b more, s.rx = b :: more ∧ s.crc8Fn.value (s.scr.readRange 0 s.recLen) = b) ∧
        t.recMem.read a = s.scr.read a)

/-! ### Invariants and rules about every step -/

/-- The reset state satisfies the invariant. -/
def Obligations.ResetSatisfiesInvariant : Prop := Coherent State.reset

/-- Every step keeps the invariant: the stores stay canonical, the cursor is 0 outside PAY (R27) and at most N (R26), only a
configured and unfaulted Block is busy (R151, R152), and a SEND's running CRC is the checksum of the bytes it has sent. -/
def Obligations.StepKeepsInvariant : Prop := ∀ s t : State, Coherent s → step s = .next t → Coherent t

/-- R27: after every step from a state a run can be in, `rx_state` other than PAY means `rx_cursor` 0. -/
def Obligations.CursorZeroOutsidePay : Prop :=
  Coherent State.reset ∧
  ∀ (k : Nat) (s t : State), Coherent s → runSteps k s = .next t → t.rxState ≠ .pay → t.rxCursor = 0#9

/-- In a state a run can be in, a step stops only at a Host access to an index no record has (log entry 15). -/
def Obligations.StepAlwaysAnswers : Prop :=
  ∀ s : State, Coherent s →
    (∀ i rest, s.schedule = .hostRead i :: rest → i < 255) →
    (∀ i v rest, s.schedule = .hostWrite i v :: rest → i < 255) →
    ∃ t, step s = .next t

/-- R22, R23: only BEGIN (and hardware reset) writes `cfg_valid` and `cfg_len`. R6, R143: nothing changes the instance's
CRC8 (that a field of State holds it is log entry 14). -/
def Obligations.OnlyBeginConfigures : Prop :=
  ∀ s t : State, step s = .next t →
    t.crc8Fn = s.crc8Fn ∧
    (t.cfgLen ≠ s.cfgLen ∨ t.cfgValid ≠ s.cfgValid →
      (∃ w rest, s.schedule = .issue w :: rest ∧ hiField w = 0b01#2 ∧ t.cfgLen = loField w ∧ t.cfgValid = true) ∨
      (∃ rest, s.schedule = .hwReset :: rest) ∨ (∃ rest, s.schedule = .hwResetInCopy :: rest))

/-- R40, R109, R171: REC changes only by the Host's own write, or where the Block's next micro-step is the copy of a frame
with a valid checksum: by that copy, which responds true, or by a reset inside it, which gives no response. -/
def Obligations.RecWrittenOnlyByValidFrame : Prop :=
  ∀ s t : State, Coherent s → step s = .next t → t.recMem ≠ s.recMem →
    (∃ i v rest, s.schedule = .hostWrite i v :: rest) ∨
    (Polling s ∧ s.rxState = .pay ∧ s.rxCursor.toNat = s.recLen ∧
      (∃ b rest, s.rx = b :: rest ∧ s.crc8Fn.value (s.scr.readRange 0 s.recLen) = b) ∧
      ((t.recMem = s.recMem.writeRange 0 (s.scr.readRange 0 s.recLen) ∧ t.hostLog = s.hostLog ++ [.ok true]) ∨
        ((∃ rest, s.schedule = .hwResetInCopy :: rest) ∧ t.hostLog = s.hostLog)))

/-- R97: SEND and its micro-steps do not write REC, scr, `rx_state`, `rx_cursor`, `cfg_len` or `cfg_valid`; what they write
besides `tx_k`, `tx_crc` and the TX stream is the command's own start, end or fault. -/
def Obligations.SendLeavesReceiver : Prop :=
  ∀ (s t : State) (i : Instr),
    i = .send ∨ i = .txHdr1 ∨ i = .txHdr2 ∨ i = .txLen ∨ (∃ k, i = .txPay k) ∨ i = .txCrc → exec i s = .next t →
    t.recMem = s.recMem ∧ t.scr = s.scr ∧ t.rxState = s.rxState ∧ t.rxCursor = s.rxCursor ∧ t.cfgLen = s.cfgLen ∧
    t.cfgValid = s.cfgValid ∧ t.rx = s.rx ∧ t.txReady = s.txReady ∧ t.agenda = s.agenda ∧ t.cycle = s.cycle ∧
    t.crc8Fn = s.crc8Fn ∧ t.freeCtr = s.freeCtr ∧
    (∃ bs, t.tx = s.tx ++ bs)

/-- R100, R111: a step that delivers a POLL's response ends the POLL, and the response is true exactly when that step copied
a record with a valid checksum; no step delivers more than one observation. -/
def Obligations.ResponseEndsPoll : Prop :=
  ∀ s t : State, Coherent s → step s = .next t →
    (t.hostLog = s.hostLog ∨ ∃ o, t.hostLog = s.hostLog ++ [o]) ∧
    (∀ v, t.hostLog = s.hostLog ++ [.ok v] →
      Polling s ∧ t.busy = false ∧
      (v = true ↔ s.rxState = .pay ∧ s.rxCursor.toNat = s.recLen ∧
        (∃ b rest, s.rx = b :: rest ∧ s.crc8Fn.value (s.scr.readRange 0 s.recLen) = b) ∧
        t.recMem = s.recMem.writeRange 0 (s.scr.readRange 0 s.recLen)))

/-! ### Whole commands and streams -/

/-- R113: a POLL's micro-step on an available byte is the transition summary's row, its outcome column included: where the
row continues, the POLL stays in flight and nothing is delivered; where it responds, the POLL ends and that is delivered. -/
def Obligations.ByteStepIsSummary : Prop :=
  ∀ (s t : State) (b : Byte) (rest : List Byte), Coherent s → Polling s → s.rx = b :: rest → blockStep s = .next t →
    t.receiver = rxStep s.crc8Fn s.recLen s.receiver b ∧
    (match rxOutcome s.crc8Fn s.recLen s.receiver b with
      | none => Polling t ∧ t.hostLog = s.hostLog
      | some v => t.busy = false ∧ t.hostLog = s.hostLog ++ [.ok v]) ∧
    t.rx = rest ∧ t.tx = s.tx ∧ t.cfgLen = s.cfgLen

/-- R117, R110: in every run whose actions neither configure nor reset the Block nor write REC, endless ones among them, with
arrivals and POLLs interleaved in any way: the bytes waiting at the start and the bytes that arrive are, in that order, the
bytes consumed and the bytes waiting at the end, and the receiver is the fold of R113's rows over the bytes consumed. Which
frames are accepted and what REC ends as is decided by the byte sequence alone. -/
def Obligations.ParseDecidedByBytesAlone : Prop :=
  ∀ (k : Nat) (s t : State), Coherent s → (∀ a ∈ s.agenda ++ s.cycle, a.leavesReceiver = true) →
    runSteps k s = .next t →
    t.recLen = s.recLen ∧
    ∃ eaten, s.rx ++ arrived k s = eaten ++ t.rx ∧ t.receiver = parse s.crc8Fn s.recLen s.receiver eaten

/-- R28: bytes consumed in PAY stand in the scratch store in the order they arrived, after those that an earlier POLL of the
same frame attempt consumed. -/
def Obligations.ScratchHoldsPayloadPrefix : Prop :=
  ∀ (s : State) (bs rest : List Byte), Coherent s → Polling s → Undisturbed s → s.rxState = .pay →
    s.rx = bs ++ rest → s.rxCursor.toNat + bs.length ≤ s.recLen →
    ∃ t, runSteps bs.length s = .next t ∧ Polling t ∧ t.rxState = .pay ∧
      t.rxCursor.toNat = s.rxCursor.toNat + bs.length ∧
      t.scr.readRange 0 t.rxCursor.toNat = s.scr.readRange 0 s.rxCursor.toNat ++ bs ∧
      t.rx = rest ∧ t.recMem = s.recMem ∧ t.hostLog = s.hostLog

/-- R98: one SEND with the sink ready appends the frame image of REC to the TX stream, contiguously, responds `done`, and
leaves everything else as it was. The schedule and the number of steps are the model's (log entries 4, 5, 9 and 10). -/
def Obligations.SendEmitsFrame : Prop :=
  ∀ (s : State) (rest : List AgentMove), Accepting s → s.cfgValid = true → s.txReady = true →
    s.schedule = .issue 0x200#10 :: rest → Undisturbed (s.withAgenda rest) →
    ∃ t, runSteps (s.recLen + 5) s = .next t ∧
      t = { s with
        agenda := rest, tx := s.tx ++ frameOf s.crc8Fn s.cfgLen s.record, hostLog := s.hostLog ++ [.done]
        curCmd := .send, txK := t.txK, txCrc := t.txCrc }

/-- R43, R98: whatever the other agents do, a step with a SEND in flight appends the byte at index `tx_k` of the frame image
of REC and moves `tx_k` on by one; or appends nothing, and `tx_k`, REC and N stay for as long as the SEND is in flight; or is
the sink's removal of the oldest byte (log entry 22). -/
def Obligations.SendStepsFollowFrame : Prop :=
  ∀ s t : State, Coherent s → Sending s → step s = .next t →
    (∃ b, (frameOf s.crc8Fn s.cfgLen s.record)[s.txK.toNat]? = some b ∧ t.tx = s.tx ++ [b] ∧
      t.txK.toNat = s.txK.toNat + 1 ∧ t.recMem = s.recMem ∧ t.cfgLen = s.cfgLen) ∨
    (t.tx = s.tx ∧ (Sending t → t.txK = s.txK ∧ t.recMem = s.recMem ∧ t.cfgLen = s.cfgLen)) ∨
    (t.tx = s.tx.tail ∧ (∃ rest, s.schedule = .txTake :: rest) ∧ Sending t ∧ t.txK = s.txK ∧
      t.recMem = s.recMem ∧ t.cfgLen = s.cfgLen)

/-- R176, and V-RT of 95_test_vectors.md: a receiver in H1 that finds bytes with no 0x06 among them and then a valid frame
of its own record length delivers the record and responds true, in one POLL. The schedule and the number of steps are the
model's (log entries 4 and 5). -/
def Obligations.ValidFrameReceived : Prop :=
  ∀ (s : State) (junk payload more : List Byte) (rest : List AgentMove),
    Coherent s → Accepting s → s.cfgValid = true → s.rxState = .h1 → 0x06#8 ∉ junk → payload.length = s.recLen →
    s.rx = junk ++ frameOf s.crc8Fn s.cfgLen payload ++ more →
    s.schedule = .issue 0x300#10 :: rest → Undisturbed (s.withAgenda rest) →
    ∃ t, runSteps (junk.length + s.recLen + 5) s = .next t ∧
      t.record = payload ∧ (∀ a, s.recLen ≤ a → t.recMem.read a = s.recMem.read a) ∧
      t = { s with
        agenda := rest, rx := more, recMem := t.recMem, scr := t.scr, curCmd := .poll
        hostLog := s.hostLog ++ [.ok true] }

/-- R98, R174 and W2 V-RT: what one instance sends, another of the same record length and checksum function, idle in H1,
receives. The schedules and the numbers of steps are the model's (log entries 4, 5, 9 and 10). -/
def Obligations.LinkRoundTrip : Prop :=
  ∀ (a b : State) (ra rb : List AgentMove), Coherent a → Coherent b → Accepting a → Accepting b →
    a.cfgValid = true → b.cfgValid = true → a.cfgLen = b.cfgLen → a.crc8Fn = b.crc8Fn → a.txReady = true →
    b.rxState = .h1 → a.tx = [] → a.schedule = .issue 0x200#10 :: ra → b.schedule = .issue 0x300#10 :: rb →
    Undisturbed (a.withAgenda ra) → Undisturbed (b.withAgenda rb) →
    ∃ ta tb, runSteps (a.recLen + 5) a = .next ta ∧
      runSteps (b.recLen + 5) { b with rx := ta.tx } = .next tb ∧
      tb.record = a.record ∧ tb.hostLog = b.hostLog ++ [.ok true] ∧ tb.rx = [] ∧ Safe ta ∧ Safe tb

/-- R142 item 4 and V-BITFLIP: a frame in which one payload byte was changed, with its checksum left as it was, is rejected:
the POLL responds false and REC keeps its contents. It holds of the default CRC8 (log entry 14); the schedule and the number
of steps are the model's (log entries 4 and 5). -/
def Obligations.ChangedPayloadByteRejected : Prop :=
  ∀ (s : State) (before after : List Byte) (b c : Byte) (rest : List AgentMove),
    Coherent s → Accepting s → s.cfgValid = true → s.rxState = .h1 → s.crc8Fn = .smbus → b ≠ c →
    before.length + after.length + 1 = s.recLen →
    s.rx = [0x06#8, 0x85#8, s.cfgLen] ++ (before ++ c :: after) ++ [crc8 (before ++ b :: after)] →
    s.schedule = .issue 0x300#10 :: rest → Undisturbed (s.withAgenda rest) →
    ∃ t, runSteps (s.recLen + 5) s = .next t ∧ t.recMem = s.recMem ∧ t.hostLog = s.hostLog ++ [.ok false] ∧
      t.rxState = .h1 ∧ t.rxCursor = 0#9 ∧ t.rx = []

/-- R112: a POLL during which nothing arrives ends within one micro-step more than the bytes waiting, and consumes only
bytes from the head of the stream; outside H1 it consumes at most N+3. -/
def Obligations.PollWorkBounded : Prop :=
  ∀ s : State, Coherent s → Polling s → Undisturbed s →
    ∃ k t eaten, k ≤ s.rx.length + 1 ∧ runSteps k s = .next t ∧ t.busy = false ∧ s.rx = eaten ++ t.rx ∧
      (s.rxState ≠ .h1 → eaten.length ≤ s.recLen + 3)

/-- R112, R182 (decision D37): a POLL in H1 need not end: while the RX source appends a byte other than 0x06 before each of
the Block's moves, without end, the POLL is in flight after any number of steps. The endless schedule is the model's cycle
(log entry 4). -/
def Obligations.PollNeedNotEnd : Prop :=
  ∀ (k : Nat) (s : State) (b : Byte), Polling s → s.rxState = .h1 → s.rx = [] → b ≠ 0x06#8 →
    s.agenda = [] → s.cycle = [.rxAppend [b], .block] →
    ∃ t, runSteps k s = .next t ∧ Polling t ∧ t.rxState = .h1 ∧ t.hostLog = s.hostLog

/-- R116, and W2 V-IDLE: with no byte available, any number of POLLs leaves the receive machine and REC as they are; a frame
attempt in PAY stays in PAY for ever. -/
def Obligations.IdlePollsChangeNothing : Prop :=
  ∀ (k : Nat) (s t : State), s.cfgValid = true → s.rx = [] → s.busy = false ∨ Polling s →
    (∀ a ∈ s.agenda ++ s.cycle, a = .issue 0x300#10 ∨ a = .await ∨ a = .block) → runSteps k s = .next t →
    t.rxState = s.rxState ∧ t.rxCursor = s.rxCursor ∧ t.scr = s.scr ∧ t.recMem = s.recMem ∧ t.cfgLen = s.cfgLen ∧
    t.faulted = s.faulted ∧ t.rx = [] ∧ t.tx = s.tx ∧ t.hostLog.count (.ok true) = s.hostLog.count (.ok true)

/-- R91, R183 (decision D17): while the TX sink is not ready and no agent acts, a SEND that is not done holds for ever: each
step changes nothing (log entry 10). -/
def Obligations.SendHoldsWithoutSink : Prop :=
  ∀ (k : Nat) (s : State), Sending s → s.txReady = false → s.txK.toNat < s.frameLen → Undisturbed s →
    runSteps k s = .next s

/-! ### The checksum (R140-R142: general knowledge, decision D22, log entry 14) -/

/-- R140, R141: the check value, the byte-at-a-time form, and the table T; and R140 is the default of the parameter CRC8
(R143), which a state after reset has. -/
def Obligations.ChecksumIsSmbus : Prop :=
  crc8 [0x31, 0x32, 0x33, 0x34, 0x35, 0x36, 0x37, 0x38, 0x39] = 0xF4#8 ∧
  (∀ (xs : List Byte) (b : Byte), crc8 (xs ++ [b]) = crc8Update (crc8 xs) b) ∧ crc8 [] = 0x00#8 ∧
  (∀ c b : Byte, crcTable[(c ^^^ b).toNat]? = some (crc8Update c b)) ∧
  (∀ xs : List Byte, State.reset.crc8Fn.value xs = crc8 xs)

/-- R142 items 2, 3 and 4: zero lists, the zero residue, and that a change of one byte changes the checksum. -/
def Obligations.ChecksumConsequences : Prop :=
  (∀ n : Nat, crc8 (List.replicate n 0x00#8) = 0x00#8) ∧
  (∀ xs : List Byte, crc8 (xs ++ [crc8 xs]) = 0x00#8) ∧
  (∀ (xs ys : List Byte) (b c : Byte), b ≠ c → crc8 (xs ++ b :: ys) ≠ crc8 (xs ++ c :: ys))
end

