-- ==== Sys2Proof/Laws/Crc.lean ====
section
/-! SUPPORT. The laws of the checksum (R140-R142). -/

namespace Sys2Proof.Machine

@[simp] theorem crc8_nil : crc8 [] = 0x00#8 := rfl

/-- The byte-at-a-time form (R141). -/
theorem crc8_append_byte (xs : List Byte) (b : Byte) : crc8 (xs ++ [b]) = crc8Update (crc8 xs) b := by
  simp [crc8]

@[simp] theorem value_smbus (xs : List Byte) : Checksum.smbus.value xs = crc8 xs := rfl

@[simp] theorem update_smbus (sent : List Byte) (c b : Byte) : Checksum.smbus.update sent c b = crc8Update c b := rfl

/-- Whatever function the parameter names, a running value stays the function's value over the bytes so far (R30, R141). -/
theorem update_value (f : Checksum) (sent : List Byte) (b : Byte) :
    f.update sent (f.value sent) b = f.value (sent ++ [b]) := by
  cases f with
  | smbus => exact (crc8_append_byte sent b).symm
  | other n => rfl

/-- The inverse of one bit step: the polynomial's low bit tells whether it was subtracted. -/
def crcBitBack (c : Byte) : Byte :=
  if c.getLsbD 0 then ((c ^^^ 0x07#8) >>> 1) ||| 0x80#8 else c >>> 1

theorem crcBitBack_crcBit : ∀ c : Byte, crcBitBack (crcBit c) = c := by decide

theorem crcBit_injective {c d : Byte} (h : crcBit c = crcBit d) : c = d := by
  rw [← crcBitBack_crcBit c, h, crcBitBack_crcBit]

/-- `crc8_update` depends on its two arguments only through their exclusive or. -/
theorem crc8Update_eq_zero_xor (c b : Byte) : crc8Update c b = crc8Update 0#8 (c ^^^ b) := by
  simp [crc8Update]

theorem crc8Update_xor_injective {c d b e : Byte} (h : crc8Update c b = crc8Update d e) : c ^^^ b = d ^^^ e := by
  simp only [crc8Update] at h
  iterate 8 replace h := crcBit_injective h
  exact h

/-- A running CRC that differs stays different over the same bytes. -/
theorem crc8Update_left_injective {c d b : Byte} (h : crc8Update c b = crc8Update d b) : c = d := by
  simpa using congrArg (· ^^^ b) (crc8Update_xor_injective h)

/-- Two different bytes make a running CRC differ. -/
theorem crc8Update_right_injective {c b e : Byte} (h : crc8Update c b = crc8Update c e) : b = e := by
  simpa using congrArg (c ^^^ ·) (crc8Update_xor_injective h)

theorem foldl_crc8Update_injective {c d : Byte} (xs : List Byte)
    (h : xs.foldl crc8Update c = xs.foldl crc8Update d) : c = d := by
  induction xs generalizing c d with
  | nil => exact h
  | cons x xs ih => exact crc8Update_left_injective (ih h)

end Sys2Proof.Machine
end

