-- ==== Sys2Proof/Laws/Decode.lean ====
section
/-! SUPPORT. The fields of the 10-bit words, and what decoding gives on the words of each format. -/

namespace Sys2Proof

theorem word10_toNat (h : BitVec 2) (b : Byte) : (word10 h b).toNat = h.toNat * 256 + b.toNat := by
  have hb := b.isLt
  have := BitVec.toNat_append h b
  rw [Nat.shiftLeft_eq, ← Nat.shiftLeft_eq, ← Nat.shiftLeft_add_eq_or_of_lt hb, Nat.shiftLeft_eq] at this
  exact this

theorem hiField_toNat (w : Word10) : (hiField w).toNat = w.toNat / 256 := by
  have hw := w.isLt
  simp only [hiField, BitVec.extractLsb'_toNat, Nat.shiftRight_eq_div_pow]
  omega

theorem loField_toNat (w : Word10) : (loField w).toNat = w.toNat % 256 := by
  simp [loField, BitVec.extractLsb'_toNat]

@[simp] theorem hiField_word10 (h : BitVec 2) (b : Byte) : hiField (word10 h b) = h := by
  have hh := h.isLt
  have hb := b.isLt
  apply BitVec.eq_of_toNat_eq
  rw [hiField_toNat, word10_toNat]
  omega

@[simp] theorem loField_word10 (h : BitVec 2) (b : Byte) : loField (word10 h b) = b := by
  have hb := b.isLt
  apply BitVec.eq_of_toNat_eq
  rw [loField_toNat, word10_toNat]
  omega

/-- A word is its two fields. -/
theorem word10_fields (w : Word10) : word10 (hiField w) (loField w) = w := by
  apply BitVec.eq_of_toNat_eq
  rw [word10_toNat, hiField_toNat, loField_toNat]
  omega

@[simp] theorem RxState.ofCode_code (r : RxState) : RxState.ofCode r.code = r := by cases r <;> decide

theorem RxState.code_ofCode : ∀ c : BitVec 2, (RxState.ofCode c).code = c := by decide

/-- Only commands are read from a command word. -/
theorem decodeCmd_cases (w : Word10) :
    decodeCmd w = .reject .reservedOp ∨ decodeCmd w = .reject .reservedOperand ∨
      decodeCmd w = .instr (.begin (loField w)) ∨ decodeCmd w = .instr .send ∨ decodeCmd w = .instr .poll := by
  unfold decodeCmd
  repeat' split
  all_goals simp

theorem decodeCmd_begin {w : Word10} {n : Byte} (h : decodeCmd w = .instr (.begin n)) :
    hiField w = 0b01#2 ∧ loField w = n := by
  unfold decodeCmd at h
  repeat' split at h
  all_goals simp_all

/-- The transmit rows by the value of `tx_k` (R70). -/
theorem decodeTxk_pay {c : RowCtx} {k : Index9} (h3 : 3 ≤ k.toNat) (hk : k.toNat < c.cfgLen.toNat + 3) :
    decodeTxk c k = .instr (.txPay (BitVec.ofNat 8 (k.toNat - 3))) := by
  have h0 : k.toNat ≠ 0 := by omega
  have h1 : k.toNat ≠ 1 := by omega
  have h2 : k.toNat ≠ 2 := by omega
  simp [decodeTxk, h0, h1, h2, hk]

theorem decodeTxk_crc {c : RowCtx} {k : Index9} (hk : k.toNat = c.cfgLen.toNat + 3) :
    decodeTxk c k = .instr .txCrc := by
  have h0 : k.toNat ≠ 0 := by omega
  have h1 : k.toNat ≠ 1 := by omega
  have h2 : k.toNat ≠ 2 := by omega
  simp [decodeTxk, hk]

end Sys2Proof
end

