-- ==== Sys2Proof/Laws/Memory.lean ====
section
/-! SUPPORT. The laws of the byte stores: what a read gives after a write, and that every operation keeps the canonical
form. -/

namespace Sys2Proof.Machine.Memory

@[simp] theorem read_nil (a : Nat) : read [] a = Config.unwritten := rfl

theorem wfFrom_mono {lo lo' : Nat} (h : lo' ≤ lo) {m : Memory} (hm : wfFrom lo m = true) : wfFrom lo' m = true := by
  cases m with
  | nil => rfl
  | cons c m =>
    obtain ⟨a, v⟩ := c
    simp only [wfFrom, Bool.and_eq_true, decide_eq_true_eq] at hm ⊢
    exact ⟨⟨h.trans hm.1.1, hm.1.2⟩, hm.2⟩

/-- Below its first index a store reads as unwritten. -/
theorem read_of_lt {m : Memory} {lo a : Nat} (hm : wfFrom lo m = true) (h : a < lo) : read m a = Config.unwritten := by
  induction m generalizing lo with
  | nil => rfl
  | cons c m ih =>
    obtain ⟨b, v⟩ := c
    simp only [wfFrom, Bool.and_eq_true, decide_eq_true_eq] at hm
    have hne : b ≠ a := by omega
    simp only [read, hne, if_false]
    exact ih hm.2 (by omega)

theorem read_cell_append {m : Memory} {a : Nat} (v : Byte) (hm : read m a = Config.unwritten) :
    read (cell a v ++ m) a = v := by
  unfold cell
  split
  · rename_i hv; simpa [hv] using hm
  · simp [read]

theorem read_cell_append_ne {m : Memory} {a b : Nat} (v : Byte) (h : a ≠ b) : read (cell a v ++ m) b = read m b := by
  unfold cell
  split
  · rfl
  · simp [read, h]

/-- A read after a write to the same index gives the byte written. -/
theorem read_write_same_from {m : Memory} {lo : Nat} (hm : wfFrom lo m = true) (a : Nat) (v : Byte) :
    read (write m a v) a = v := by
  induction m generalizing lo with
  | nil => simpa [write] using read_cell_append v (m := []) (a := a) rfl
  | cons c m ih =>
    obtain ⟨b, w⟩ := c
    have hm' := hm
    simp only [wfFrom, Bool.and_eq_true, decide_eq_true_eq] at hm
    simp only [write]
    split
    · rename_i hlt
      refine read_cell_append v ?_
      have hne : b ≠ a := by omega
      simp only [read, hne, if_false]
      exact read_of_lt hm.2 (by omega)
    · split
      · rename_i hab
        subst hab
        exact read_cell_append v (read_of_lt hm.2 (by omega))
      · rename_i hab
        have hne : b ≠ a := fun h => hab h.symm
        simp only [read, hne, if_false]
        exact ih hm.2

/-- A write leaves every other index alone. -/
theorem read_write_other (m : Memory) {a b : Nat} (v : Byte) (h : a ≠ b) : read (write m a v) b = read m b := by
  induction m with
  | nil => simpa [write] using read_cell_append_ne (m := []) v h
  | cons c m ih =>
    obtain ⟨d, w⟩ := c
    simp only [write]
    split
    · exact read_cell_append_ne v h
    · split
      · rename_i had
        subst had
        rw [read_cell_append_ne v h]
        simp [read, h]
      · simp only [read]
        split
        · rfl
        · exact ih

theorem wfFrom_cell_append {m : Memory} {lo a : Nat} (v : Byte) (hlo : lo ≤ a) (hm : wfFrom (a + 1) m = true) :
    wfFrom lo (cell a v ++ m) = true := by
  unfold cell
  split
  · exact wfFrom_mono (by omega) hm
  · rename_i hv
    simp [wfFrom, hlo, hv, hm]

theorem wfFrom_write {m : Memory} {lo a : Nat} (v : Byte) (hlo : lo ≤ a) (hm : wfFrom lo m = true) :
    wfFrom lo (write m a v) = true := by
  induction m generalizing lo with
  | nil => simpa [write] using wfFrom_cell_append v hlo (m := []) rfl
  | cons c m ih =>
    obtain ⟨b, w⟩ := c
    have hm' := hm
    simp only [wfFrom, Bool.and_eq_true, decide_eq_true_eq] at hm
    simp only [write]
    split
    · rename_i hlt
      refine wfFrom_cell_append v hlo ?_
      simp only [wfFrom, Bool.and_eq_true, decide_eq_true_eq]
      exact ⟨⟨hlt, hm.1.2⟩, hm.2⟩
    · split
      · rename_i hab
        subst hab
        exact wfFrom_cell_append v hlo hm.2
      · rename_i hlt hab
        simp only [wfFrom, Bool.and_eq_true, decide_eq_true_eq]
        exact ⟨hm.1, ih (by omega) hm.2⟩

theorem read_write_same {m : Memory} (hm : m.wf = true) (a : Nat) (v : Byte) : (m.write a v).read a = v :=
  read_write_same_from hm a v

/-- A write keeps the canonical form. -/
theorem wf_write {m : Memory} (hm : m.wf = true) (a : Nat) (v : Byte) : (m.write a v).wf = true :=
  wfFrom_write v (Nat.zero_le a) hm

@[simp] theorem wf_nil : wf [] = true := rfl

@[simp] theorem below_nil (cap : Nat) : below cap [] = true := rfl

theorem below_cell (cap a : Nat) (v : Byte) (h : a < cap) : below cap (cell a v) = true := by
  unfold cell below
  split <;> simp [h]

theorem below_append (cap : Nat) (m m' : Memory) : below cap (m ++ m') = (below cap m && below cap m') := by
  simp [below]

/-- A write at an index below `cap` keeps every index below `cap`. -/
theorem below_write {cap : Nat} {m : Memory} (hm : m.below cap = true) {a : Nat} (v : Byte) (h : a < cap) :
    (m.write a v).below cap = true := by
  induction m with
  | nil => simpa [write] using below_cell cap a v h
  | cons c m ih =>
    obtain ⟨b, w⟩ := c
    have hm' : b < cap ∧ below cap m = true := by simpa [below] using hm
    simp only [write]
    split
    · rw [below_append, below_cell cap a v h, hm]; rfl
    · split
      · rw [below_append, below_cell cap a v h, hm'.2]; rfl
      · have := ih hm'.2
        simpa [below, hm'.1] using this

/-- Two canonical stores that read alike are equal. -/
theorem ext_from {m m' : Memory} {lo : Nat} (hm : wfFrom lo m = true) (hm' : wfFrom lo m' = true)
    (h : ∀ a, read m a = read m' a) : m = m' := by
  induction m generalizing m' lo with
  | nil =>
    cases m' with
    | nil => rfl
    | cons c m' =>
      obtain ⟨a, v⟩ := c
      have := h a
      simp [read] at this
      simp [wfFrom, ← this] at hm'
  | cons c m ih =>
    obtain ⟨a, v⟩ := c
    simp only [wfFrom, Bool.and_eq_true, decide_eq_true_eq, bne_iff_ne, ne_eq] at hm
    cases m' with
    | nil => exact absurd (by simpa [read] using h a) hm.1.2
    | cons c' m' =>
      obtain ⟨b, w⟩ := c'
      simp only [wfFrom, Bool.and_eq_true, decide_eq_true_eq, bne_iff_ne, ne_eq] at hm'
      have hab : a = b := by
        by_contra hne
        rcases Nat.lt_or_gt_of_ne hne with hlt | hlt
        · have h1 := h a
          have hba : b ≠ a := fun e => hne e.symm
          simp only [read, if_true, hba, if_false] at h1
          rw [read_of_lt hm'.2 (by omega)] at h1
          exact hm.1.2 h1
        · have h1 := h b
          simp only [read, if_true, hne, if_false] at h1
          rw [read_of_lt hm.2 (by omega)] at h1
          exact hm'.1.2 h1.symm
      subst hab
      have hvw : v = w := by simpa [read] using h a
      subst hvw
      have htail : m = m' := by
        refine ih hm.2 hm'.2 fun x => ?_
        by_cases hx : x ≤ a
        · rw [read_of_lt hm.2 (by omega), read_of_lt hm'.2 (by omega)]
        · have hax : a ≠ x := by omega
          simpa [read, hax] using h x
      rw [htail]

theorem ext {m m' : Memory} (hm : m.wf = true) (hm' : m'.wf = true) (h : ∀ a, m.read a = m'.read a) : m = m' :=
  ext_from hm hm' h

/-! ### Ranges -/

@[simp] theorem length_readRange (m : Memory) (a n : Nat) : (m.readRange a n).length = n := by
  induction n generalizing a with
  | zero => rfl
  | succ n ih => simp [readRange, ih]

theorem getElem_readRange (m : Memory) (a n i : Nat) (h : i < (m.readRange a n).length) :
    (m.readRange a n)[i] = m.read (a + i) := by
  induction n generalizing a i with
  | zero => simp at h
  | succ n ih =>
    cases i with
    | zero => simp [readRange]
    | succ i =>
      simp only [readRange, List.getElem_cons_succ]
      rw [ih]
      congr 1
      omega

/-- Stores that read alike on a range give the same bytes of it. -/
theorem readRange_congr {m m' : Memory} {a n : Nat} (h : ∀ i, a ≤ i → i < a + n → m.read i = m'.read i) :
    m.readRange a n = m'.readRange a n := by
  induction n generalizing a with
  | zero => rfl
  | succ n ih =>
    simp only [readRange]
    rw [h a (by omega) (by omega), ih fun i h1 h2 => h i (by omega) (by omega)]

/-- A longer range is a shorter one and one more byte. -/
theorem readRange_succ (m : Memory) (a n : Nat) : m.readRange a (n + 1) = m.readRange a n ++ [m.read (a + n)] := by
  induction n generalizing a with
  | zero => rfl
  | succ n ih =>
    rw [readRange, ih (a + 1)]
    have hidx : a + 1 + n = a + (n + 1) := by omega
    rw [hidx]
    rfl

/-- A write at or past the end of a range does not change its bytes. -/
theorem readRange_write_outside (m : Memory) {a n b : Nat} (v : Byte) (h : b < a ∨ a + n ≤ b) :
    (m.write b v).readRange a n = m.readRange a n :=
  readRange_congr fun i h1 h2 => read_write_other m v (by omega)

/-- A write of one more byte at the end of a range. -/
theorem readRange_write_end {m : Memory} (hm : m.wf = true) (a n : Nat) (v : Byte) :
    (m.write (a + n) v).readRange a (n + 1) = m.readRange a n ++ [v] := by
  rw [readRange_succ, readRange_write_outside m v (Or.inr (Nat.le_refl _)), read_write_same hm]

theorem wf_writeRange {m : Memory} (hm : m.wf = true) (a : Nat) (vs : List Byte) : (m.writeRange a vs).wf = true := by
  induction vs generalizing m a with
  | nil => exact hm
  | cons v vs ih => exact ih (wf_write hm a v) (a + 1)

theorem below_writeRange {cap : Nat} {m : Memory} (hm : m.below cap = true) {a : Nat} (vs : List Byte)
    (h : a + vs.length ≤ cap) : (m.writeRange a vs).below cap = true := by
  induction vs generalizing m a with
  | nil => exact hm
  | cons v vs ih =>
    simp only [List.length_cons] at h
    exact ih (below_write hm v (by omega)) (by omega)

/-- A range write leaves every index outside the range alone. -/
theorem read_writeRange_outside (m : Memory) {a : Nat} (vs : List Byte) {b : Nat} (h : b < a ∨ a + vs.length ≤ b) :
    (m.writeRange a vs).read b = m.read b := by
  induction vs generalizing m a with
  | nil => rfl
  | cons v vs ih =>
    simp only [List.length_cons] at h
    simp only [writeRange]
    rw [ih (m.write a v) (by omega), read_write_other m v (by omega)]

/-- A range write stores the bytes it is given. -/
theorem readRange_writeRange {m : Memory} (hm : m.wf = true) (a : Nat) (vs : List Byte) :
    (m.writeRange a vs).readRange a vs.length = vs := by
  induction vs generalizing m a with
  | nil => rfl
  | cons v vs ih =>
    simp only [writeRange, List.length_cons, readRange]
    rw [ih (wf_write hm a v) (a + 1), read_writeRange_outside _ vs (Or.inl (by omega)), read_write_same hm]

theorem read_writeRange_inside {m : Memory} (hm : m.wf = true) (a : Nat) (vs : List Byte) (i : Nat)
    (h : i < vs.length) : (m.writeRange a vs).read (a + i) = vs[i] := by
  have h1 := getElem_readRange (m.writeRange a vs) a vs.length i (by simpa using h)
  rw [← h1]
  congr 1
  exact readRange_writeRange hm a vs

/-! ### A reset inside the copy -/

theorem wf_partialCopy {m : Memory} (hm : m.wf = true) (n a : Nat) (vs : List Byte) :
    (partialCopy n m a vs).wf = true := by
  induction vs generalizing m a with
  | nil => exact hm
  | cons v vs ih =>
    simp only [partialCopy]
    split
    · exact ih (wf_write hm a v) (a + 1)
    · exact ih hm (a + 1)

theorem below_partialCopy {cap : Nat} {m : Memory} (hm : m.below cap = true) (n : Nat) {a : Nat} (vs : List Byte)
    (h : a + vs.length ≤ cap) : (partialCopy n m a vs).below cap = true := by
  induction vs generalizing m a with
  | nil => exact hm
  | cons v vs ih =>
    simp only [List.length_cons] at h
    simp only [partialCopy]
    split
    · exact ih (below_write hm v (by omega)) (by omega)
    · exact ih hm (by omega)

theorem read_partialCopy_outside (m : Memory) (n : Nat) {a : Nat} (vs : List Byte) {b : Nat}
    (h : b < a ∨ a + vs.length ≤ b) : (partialCopy n m a vs).read b = m.read b := by
  induction vs generalizing m a with
  | nil => rfl
  | cons v vs ih =>
    simp only [List.length_cons] at h
    simp only [partialCopy]
    rw [ih _ (by omega)]
    split
    · exact read_write_other m v (by omega)
    · rfl

end Sys2Proof.Machine.Memory
end

