-- ==== Sys2Proof/Laws/State.lean ====
section
/-! SUPPORT. One lemma per field per shared update of State, so that no proof unfolds a record update. -/

namespace Sys2Proof.Machine

@[simp] theorem rxPop_cfgValid (s : State) : (s.rxPop).cfgValid = s.cfgValid := rfl
@[simp] theorem rxPop_cfgLen (s : State) : (s.rxPop).cfgLen = s.cfgLen := rfl
@[simp] theorem rxPop_rxState (s : State) : (s.rxPop).rxState = s.rxState := rfl
@[simp] theorem rxPop_scr (s : State) : (s.rxPop).scr = s.scr := rfl
@[simp] theorem rxPop_rxCursor (s : State) : (s.rxPop).rxCursor = s.rxCursor := rfl
@[simp] theorem rxPop_busy (s : State) : (s.rxPop).busy = s.busy := rfl
@[simp] theorem rxPop_curCmd (s : State) : (s.rxPop).curCmd = s.curCmd := rfl
@[simp] theorem rxPop_txK (s : State) : (s.rxPop).txK = s.txK := rfl
@[simp] theorem rxPop_txCrc (s : State) : (s.rxPop).txCrc = s.txCrc := rfl
@[simp] theorem rxPop_faulted (s : State) : (s.rxPop).faulted = s.faulted := rfl
@[simp] theorem rxPop_faultReason (s : State) : (s.rxPop).faultReason = s.faultReason := rfl
@[simp] theorem rxPop_recMem (s : State) : (s.rxPop).recMem = s.recMem := rfl
@[simp] theorem rxPop_rx (s : State) : (s.rxPop).rx = s.rx.tail := rfl
@[simp] theorem rxPop_tx (s : State) : (s.rxPop).tx = s.tx := rfl
@[simp] theorem rxPop_txReady (s : State) : (s.rxPop).txReady = s.txReady := rfl
@[simp] theorem rxPop_hostLog (s : State) : (s.rxPop).hostLog = s.hostLog := rfl
@[simp] theorem rxPop_crc8Fn (s : State) : (s.rxPop).crc8Fn = s.crc8Fn := rfl
@[simp] theorem rxPop_agenda (s : State) : (s.rxPop).agenda = s.agenda := rfl
@[simp] theorem rxPop_cycle (s : State) : (s.rxPop).cycle = s.cycle := rfl
@[simp] theorem rxPop_freeCtr (s : State) : (s.rxPop).freeCtr = s.freeCtr := rfl

@[simp] theorem respond_cfgValid (v : HostObs) (s : State) : (respond v s).cfgValid = s.cfgValid := rfl
@[simp] theorem respond_cfgLen (v : HostObs) (s : State) : (respond v s).cfgLen = s.cfgLen := rfl
@[simp] theorem respond_rxState (v : HostObs) (s : State) : (respond v s).rxState = s.rxState := rfl
@[simp] theorem respond_scr (v : HostObs) (s : State) : (respond v s).scr = s.scr := rfl
@[simp] theorem respond_rxCursor (v : HostObs) (s : State) : (respond v s).rxCursor = s.rxCursor := rfl
@[simp] theorem respond_busy (v : HostObs) (s : State) : (respond v s).busy = false := rfl
@[simp] theorem respond_curCmd (v : HostObs) (s : State) : (respond v s).curCmd = s.curCmd := rfl
@[simp] theorem respond_txK (v : HostObs) (s : State) : (respond v s).txK = s.txK := rfl
@[simp] theorem respond_txCrc (v : HostObs) (s : State) : (respond v s).txCrc = s.txCrc := rfl
@[simp] theorem respond_faulted (v : HostObs) (s : State) : (respond v s).faulted = s.faulted := rfl
@[simp] theorem respond_faultReason (v : HostObs) (s : State) : (respond v s).faultReason = s.faultReason := rfl
@[simp] theorem respond_recMem (v : HostObs) (s : State) : (respond v s).recMem = s.recMem := rfl
@[simp] theorem respond_rx (v : HostObs) (s : State) : (respond v s).rx = s.rx := rfl
@[simp] theorem respond_tx (v : HostObs) (s : State) : (respond v s).tx = s.tx := rfl
@[simp] theorem respond_txReady (v : HostObs) (s : State) : (respond v s).txReady = s.txReady := rfl
@[simp] theorem respond_hostLog (v : HostObs) (s : State) : (respond v s).hostLog = s.hostLog ++ [v] := rfl
@[simp] theorem respond_crc8Fn (v : HostObs) (s : State) : (respond v s).crc8Fn = s.crc8Fn := rfl
@[simp] theorem respond_agenda (v : HostObs) (s : State) : (respond v s).agenda = s.agenda := rfl
@[simp] theorem respond_cycle (v : HostObs) (s : State) : (respond v s).cycle = s.cycle := rfl
@[simp] theorem respond_freeCtr (v : HostObs) (s : State) : (respond v s).freeCtr = s.freeCtr := rfl

@[simp] theorem raiseFault_cfgValid (r : FaultReason) (s : State) : (raiseFault r s).cfgValid = s.cfgValid := rfl
@[simp] theorem raiseFault_cfgLen (r : FaultReason) (s : State) : (raiseFault r s).cfgLen = s.cfgLen := rfl
@[simp] theorem raiseFault_rxState (r : FaultReason) (s : State) : (raiseFault r s).rxState = s.rxState := rfl
@[simp] theorem raiseFault_scr (r : FaultReason) (s : State) : (raiseFault r s).scr = s.scr := rfl
@[simp] theorem raiseFault_rxCursor (r : FaultReason) (s : State) : (raiseFault r s).rxCursor = s.rxCursor := rfl
@[simp] theorem raiseFault_busy (r : FaultReason) (s : State) : (raiseFault r s).busy = false := rfl
@[simp] theorem raiseFault_curCmd (r : FaultReason) (s : State) : (raiseFault r s).curCmd = s.curCmd := rfl
@[simp] theorem raiseFault_txK (r : FaultReason) (s : State) : (raiseFault r s).txK = s.txK := rfl
@[simp] theorem raiseFault_txCrc (r : FaultReason) (s : State) : (raiseFault r s).txCrc = s.txCrc := rfl
@[simp] theorem raiseFault_faulted (r : FaultReason) (s : State) : (raiseFault r s).faulted = true := rfl
@[simp] theorem raiseFault_faultReason (r : FaultReason) (s : State) : (raiseFault r s).faultReason = r := rfl
@[simp] theorem raiseFault_recMem (r : FaultReason) (s : State) : (raiseFault r s).recMem = s.recMem := rfl
@[simp] theorem raiseFault_rx (r : FaultReason) (s : State) : (raiseFault r s).rx = s.rx := rfl
@[simp] theorem raiseFault_tx (r : FaultReason) (s : State) : (raiseFault r s).tx = s.tx := rfl
@[simp] theorem raiseFault_txReady (r : FaultReason) (s : State) : (raiseFault r s).txReady = s.txReady := rfl
@[simp] theorem raiseFault_hostLog (r : FaultReason) (s : State) : (raiseFault r s).hostLog = s.hostLog := rfl
@[simp] theorem raiseFault_crc8Fn (r : FaultReason) (s : State) : (raiseFault r s).crc8Fn = s.crc8Fn := rfl
@[simp] theorem raiseFault_agenda (r : FaultReason) (s : State) : (raiseFault r s).agenda = s.agenda := rfl
@[simp] theorem raiseFault_cycle (r : FaultReason) (s : State) : (raiseFault r s).cycle = s.cycle := rfl
@[simp] theorem raiseFault_freeCtr (r : FaultReason) (s : State) : (raiseFault r s).freeCtr = s.freeCtr := rfl

@[simp] theorem accept_cfgValid (c : CmdKind) (s : State) : (accept c s).cfgValid = s.cfgValid := rfl
@[simp] theorem accept_cfgLen (c : CmdKind) (s : State) : (accept c s).cfgLen = s.cfgLen := rfl
@[simp] theorem accept_rxState (c : CmdKind) (s : State) : (accept c s).rxState = s.rxState := rfl
@[simp] theorem accept_scr (c : CmdKind) (s : State) : (accept c s).scr = s.scr := rfl
@[simp] theorem accept_rxCursor (c : CmdKind) (s : State) : (accept c s).rxCursor = s.rxCursor := rfl
@[simp] theorem accept_busy (c : CmdKind) (s : State) : (accept c s).busy = true := rfl
@[simp] theorem accept_curCmd (c : CmdKind) (s : State) : (accept c s).curCmd = c := rfl
@[simp] theorem accept_txK (c : CmdKind) (s : State) : (accept c s).txK = s.txK := rfl
@[simp] theorem accept_txCrc (c : CmdKind) (s : State) : (accept c s).txCrc = s.txCrc := rfl
@[simp] theorem accept_faulted (c : CmdKind) (s : State) : (accept c s).faulted = s.faulted := rfl
@[simp] theorem accept_faultReason (c : CmdKind) (s : State) : (accept c s).faultReason = s.faultReason := rfl
@[simp] theorem accept_recMem (c : CmdKind) (s : State) : (accept c s).recMem = s.recMem := rfl
@[simp] theorem accept_rx (c : CmdKind) (s : State) : (accept c s).rx = s.rx := rfl
@[simp] theorem accept_tx (c : CmdKind) (s : State) : (accept c s).tx = s.tx := rfl
@[simp] theorem accept_txReady (c : CmdKind) (s : State) : (accept c s).txReady = s.txReady := rfl
@[simp] theorem accept_hostLog (c : CmdKind) (s : State) : (accept c s).hostLog = s.hostLog := rfl
@[simp] theorem accept_crc8Fn (c : CmdKind) (s : State) : (accept c s).crc8Fn = s.crc8Fn := rfl
@[simp] theorem accept_agenda (c : CmdKind) (s : State) : (accept c s).agenda = s.agenda := rfl
@[simp] theorem accept_cycle (c : CmdKind) (s : State) : (accept c s).cycle = s.cycle := rfl
@[simp] theorem accept_freeCtr (c : CmdKind) (s : State) : (accept c s).freeCtr = s.freeCtr := rfl

@[simp] theorem toH1_cfgValid (s : State) : (toH1 s).cfgValid = s.cfgValid := rfl
@[simp] theorem toH1_cfgLen (s : State) : (toH1 s).cfgLen = s.cfgLen := rfl
@[simp] theorem toH1_rxState (s : State) : (toH1 s).rxState = .h1 := rfl
@[simp] theorem toH1_scr (s : State) : (toH1 s).scr = s.scr := rfl
@[simp] theorem toH1_rxCursor (s : State) : (toH1 s).rxCursor = 0#9 := rfl
@[simp] theorem toH1_busy (s : State) : (toH1 s).busy = s.busy := rfl
@[simp] theorem toH1_curCmd (s : State) : (toH1 s).curCmd = s.curCmd := rfl
@[simp] theorem toH1_txK (s : State) : (toH1 s).txK = s.txK := rfl
@[simp] theorem toH1_txCrc (s : State) : (toH1 s).txCrc = s.txCrc := rfl
@[simp] theorem toH1_faulted (s : State) : (toH1 s).faulted = s.faulted := rfl
@[simp] theorem toH1_faultReason (s : State) : (toH1 s).faultReason = s.faultReason := rfl
@[simp] theorem toH1_recMem (s : State) : (toH1 s).recMem = s.recMem := rfl
@[simp] theorem toH1_rx (s : State) : (toH1 s).rx = s.rx := rfl
@[simp] theorem toH1_tx (s : State) : (toH1 s).tx = s.tx := rfl
@[simp] theorem toH1_txReady (s : State) : (toH1 s).txReady = s.txReady := rfl
@[simp] theorem toH1_hostLog (s : State) : (toH1 s).hostLog = s.hostLog := rfl
@[simp] theorem toH1_crc8Fn (s : State) : (toH1 s).crc8Fn = s.crc8Fn := rfl
@[simp] theorem toH1_agenda (s : State) : (toH1 s).agenda = s.agenda := rfl
@[simp] theorem toH1_cycle (s : State) : (toH1 s).cycle = s.cycle := rfl
@[simp] theorem toH1_freeCtr (s : State) : (toH1 s).freeCtr = s.freeCtr := rfl

@[simp] theorem beginEffect_cfgValid (n : Byte) (s : State) : (beginEffect n s).cfgValid = true := rfl
@[simp] theorem beginEffect_cfgLen (n : Byte) (s : State) : (beginEffect n s).cfgLen = n := rfl
@[simp] theorem beginEffect_rxState (n : Byte) (s : State) : (beginEffect n s).rxState = .h1 := rfl
@[simp] theorem beginEffect_scr (n : Byte) (s : State) : (beginEffect n s).scr = s.scr.writeRange 0 (List.replicate (n.toNat + 1) 0x00#8) := rfl
@[simp] theorem beginEffect_rxCursor (n : Byte) (s : State) : (beginEffect n s).rxCursor = 0#9 := rfl
@[simp] theorem beginEffect_busy (n : Byte) (s : State) : (beginEffect n s).busy = true := rfl
@[simp] theorem beginEffect_curCmd (n : Byte) (s : State) : (beginEffect n s).curCmd = .begin := rfl
@[simp] theorem beginEffect_txK (n : Byte) (s : State) : (beginEffect n s).txK = s.txK := rfl
@[simp] theorem beginEffect_txCrc (n : Byte) (s : State) : (beginEffect n s).txCrc = s.txCrc := rfl
@[simp] theorem beginEffect_faulted (n : Byte) (s : State) : (beginEffect n s).faulted = s.faulted := rfl
@[simp] theorem beginEffect_faultReason (n : Byte) (s : State) : (beginEffect n s).faultReason = s.faultReason := rfl
@[simp] theorem beginEffect_recMem (n : Byte) (s : State) : (beginEffect n s).recMem = s.recMem := rfl
@[simp] theorem beginEffect_rx (n : Byte) (s : State) : (beginEffect n s).rx = s.rx := rfl
@[simp] theorem beginEffect_tx (n : Byte) (s : State) : (beginEffect n s).tx = s.tx := rfl
@[simp] theorem beginEffect_txReady (n : Byte) (s : State) : (beginEffect n s).txReady = s.txReady := rfl
@[simp] theorem beginEffect_hostLog (n : Byte) (s : State) : (beginEffect n s).hostLog = s.hostLog := rfl
@[simp] theorem beginEffect_crc8Fn (n : Byte) (s : State) : (beginEffect n s).crc8Fn = s.crc8Fn := rfl
@[simp] theorem beginEffect_agenda (n : Byte) (s : State) : (beginEffect n s).agenda = s.agenda := rfl
@[simp] theorem beginEffect_cycle (n : Byte) (s : State) : (beginEffect n s).cycle = s.cycle := rfl
@[simp] theorem beginEffect_freeCtr (n : Byte) (s : State) : (beginEffect n s).freeCtr = s.freeCtr := rfl

@[simp] theorem copyToRec_cfgValid (s : State) : (copyToRec s).cfgValid = s.cfgValid := rfl
@[simp] theorem copyToRec_cfgLen (s : State) : (copyToRec s).cfgLen = s.cfgLen := rfl
@[simp] theorem copyToRec_rxState (s : State) : (copyToRec s).rxState = s.rxState := rfl
@[simp] theorem copyToRec_scr (s : State) : (copyToRec s).scr = s.scr := rfl
@[simp] theorem copyToRec_rxCursor (s : State) : (copyToRec s).rxCursor = s.rxCursor := rfl
@[simp] theorem copyToRec_busy (s : State) : (copyToRec s).busy = s.busy := rfl
@[simp] theorem copyToRec_curCmd (s : State) : (copyToRec s).curCmd = s.curCmd := rfl
@[simp] theorem copyToRec_txK (s : State) : (copyToRec s).txK = s.txK := rfl
@[simp] theorem copyToRec_txCrc (s : State) : (copyToRec s).txCrc = s.txCrc := rfl
@[simp] theorem copyToRec_faulted (s : State) : (copyToRec s).faulted = s.faulted := rfl
@[simp] theorem copyToRec_faultReason (s : State) : (copyToRec s).faultReason = s.faultReason := rfl
@[simp] theorem copyToRec_recMem (s : State) : (copyToRec s).recMem = s.recMem.writeRange 0 s.payload := rfl
@[simp] theorem copyToRec_rx (s : State) : (copyToRec s).rx = s.rx := rfl
@[simp] theorem copyToRec_tx (s : State) : (copyToRec s).tx = s.tx := rfl
@[simp] theorem copyToRec_txReady (s : State) : (copyToRec s).txReady = s.txReady := rfl
@[simp] theorem copyToRec_hostLog (s : State) : (copyToRec s).hostLog = s.hostLog := rfl
@[simp] theorem copyToRec_crc8Fn (s : State) : (copyToRec s).crc8Fn = s.crc8Fn := rfl
@[simp] theorem copyToRec_agenda (s : State) : (copyToRec s).agenda = s.agenda := rfl
@[simp] theorem copyToRec_cycle (s : State) : (copyToRec s).cycle = s.cycle := rfl
@[simp] theorem copyToRec_freeCtr (s : State) : (copyToRec s).freeCtr = s.freeCtr := rfl

@[simp] theorem storeCrc_cfgValid (b : Byte) (s : State) : (storeCrc b s).cfgValid = s.cfgValid := rfl
@[simp] theorem storeCrc_cfgLen (b : Byte) (s : State) : (storeCrc b s).cfgLen = s.cfgLen := rfl
@[simp] theorem storeCrc_rxState (b : Byte) (s : State) : (storeCrc b s).rxState = s.rxState := rfl
@[simp] theorem storeCrc_scr (b : Byte) (s : State) : (storeCrc b s).scr = s.scr.write s.recLen b := rfl
@[simp] theorem storeCrc_rxCursor (b : Byte) (s : State) : (storeCrc b s).rxCursor = s.cfgLen.zeroExtend 9 + 1#9 := rfl
@[simp] theorem storeCrc_busy (b : Byte) (s : State) : (storeCrc b s).busy = s.busy := rfl
@[simp] theorem storeCrc_curCmd (b : Byte) (s : State) : (storeCrc b s).curCmd = s.curCmd := rfl
@[simp] theorem storeCrc_txK (b : Byte) (s : State) : (storeCrc b s).txK = s.txK := rfl
@[simp] theorem storeCrc_txCrc (b : Byte) (s : State) : (storeCrc b s).txCrc = s.txCrc := rfl
@[simp] theorem storeCrc_faulted (b : Byte) (s : State) : (storeCrc b s).faulted = s.faulted := rfl
@[simp] theorem storeCrc_faultReason (b : Byte) (s : State) : (storeCrc b s).faultReason = s.faultReason := rfl
@[simp] theorem storeCrc_recMem (b : Byte) (s : State) : (storeCrc b s).recMem = s.recMem := rfl
@[simp] theorem storeCrc_rx (b : Byte) (s : State) : (storeCrc b s).rx = s.rx.tail := rfl
@[simp] theorem storeCrc_tx (b : Byte) (s : State) : (storeCrc b s).tx = s.tx := rfl
@[simp] theorem storeCrc_txReady (b : Byte) (s : State) : (storeCrc b s).txReady = s.txReady := rfl
@[simp] theorem storeCrc_hostLog (b : Byte) (s : State) : (storeCrc b s).hostLog = s.hostLog := rfl
@[simp] theorem storeCrc_crc8Fn (b : Byte) (s : State) : (storeCrc b s).crc8Fn = s.crc8Fn := rfl
@[simp] theorem storeCrc_agenda (b : Byte) (s : State) : (storeCrc b s).agenda = s.agenda := rfl
@[simp] theorem storeCrc_cycle (b : Byte) (s : State) : (storeCrc b s).cycle = s.cycle := rfl
@[simp] theorem storeCrc_freeCtr (b : Byte) (s : State) : (storeCrc b s).freeCtr = s.freeCtr := rfl

@[simp] theorem finishFrame_cfgValid (s : State) : (finishFrame s).cfgValid = s.cfgValid := by
  unfold finishFrame
  split <;> rfl
@[simp] theorem finishFrame_cfgLen (s : State) : (finishFrame s).cfgLen = s.cfgLen := by
  unfold finishFrame
  split <;> rfl
@[simp] theorem finishFrame_rxState (s : State) : (finishFrame s).rxState = .h1 := rfl
@[simp] theorem finishFrame_scr (s : State) : (finishFrame s).scr = s.scr := by
  unfold finishFrame
  split <;> rfl
@[simp] theorem finishFrame_rxCursor (s : State) : (finishFrame s).rxCursor = 0#9 := rfl
@[simp] theorem finishFrame_busy (s : State) : (finishFrame s).busy = false := rfl
@[simp] theorem finishFrame_curCmd (s : State) : (finishFrame s).curCmd = s.curCmd := by
  unfold finishFrame
  split <;> rfl
@[simp] theorem finishFrame_txK (s : State) : (finishFrame s).txK = s.txK := by
  unfold finishFrame
  split <;> rfl
@[simp] theorem finishFrame_txCrc (s : State) : (finishFrame s).txCrc = s.txCrc := by
  unfold finishFrame
  split <;> rfl
@[simp] theorem finishFrame_faulted (s : State) : (finishFrame s).faulted = s.faulted := by
  unfold finishFrame
  split <;> rfl
@[simp] theorem finishFrame_faultReason (s : State) : (finishFrame s).faultReason = s.faultReason := by
  unfold finishFrame
  split <;> rfl
@[simp] theorem finishFrame_recMem (s : State) : (finishFrame s).recMem = if s.frameOk then s.recMem.writeRange 0 s.payload else s.recMem := by
  unfold finishFrame
  split <;> rfl
@[simp] theorem finishFrame_rx (s : State) : (finishFrame s).rx = s.rx := by
  unfold finishFrame
  split <;> rfl
@[simp] theorem finishFrame_tx (s : State) : (finishFrame s).tx = s.tx := by
  unfold finishFrame
  split <;> rfl
@[simp] theorem finishFrame_txReady (s : State) : (finishFrame s).txReady = s.txReady := by
  unfold finishFrame
  split <;> rfl
@[simp] theorem finishFrame_hostLog (s : State) : (finishFrame s).hostLog = s.hostLog ++ [.ok s.frameOk] := by
  unfold finishFrame
  split <;> rfl
@[simp] theorem finishFrame_crc8Fn (s : State) : (finishFrame s).crc8Fn = s.crc8Fn := by
  unfold finishFrame
  split <;> rfl
@[simp] theorem finishFrame_agenda (s : State) : (finishFrame s).agenda = s.agenda := by
  unfold finishFrame
  split <;> rfl
@[simp] theorem finishFrame_cycle (s : State) : (finishFrame s).cycle = s.cycle := by
  unfold finishFrame
  split <;> rfl
@[simp] theorem finishFrame_freeCtr (s : State) : (finishFrame s).freeCtr = s.freeCtr := by
  unfold finishFrame
  split <;> rfl

@[simp] theorem withAgenda_cfgValid (s : State) (ms : List AgentMove) : (s.withAgenda ms).cfgValid = s.cfgValid := rfl
@[simp] theorem withAgenda_cfgLen (s : State) (ms : List AgentMove) : (s.withAgenda ms).cfgLen = s.cfgLen := rfl
@[simp] theorem withAgenda_rxState (s : State) (ms : List AgentMove) : (s.withAgenda ms).rxState = s.rxState := rfl
@[simp] theorem withAgenda_scr (s : State) (ms : List AgentMove) : (s.withAgenda ms).scr = s.scr := rfl
@[simp] theorem withAgenda_rxCursor (s : State) (ms : List AgentMove) : (s.withAgenda ms).rxCursor = s.rxCursor := rfl
@[simp] theorem withAgenda_busy (s : State) (ms : List AgentMove) : (s.withAgenda ms).busy = s.busy := rfl
@[simp] theorem withAgenda_curCmd (s : State) (ms : List AgentMove) : (s.withAgenda ms).curCmd = s.curCmd := rfl
@[simp] theorem withAgenda_txK (s : State) (ms : List AgentMove) : (s.withAgenda ms).txK = s.txK := rfl
@[simp] theorem withAgenda_txCrc (s : State) (ms : List AgentMove) : (s.withAgenda ms).txCrc = s.txCrc := rfl
@[simp] theorem withAgenda_faulted (s : State) (ms : List AgentMove) : (s.withAgenda ms).faulted = s.faulted := rfl
@[simp] theorem withAgenda_faultReason (s : State) (ms : List AgentMove) : (s.withAgenda ms).faultReason = s.faultReason := rfl
@[simp] theorem withAgenda_recMem (s : State) (ms : List AgentMove) : (s.withAgenda ms).recMem = s.recMem := rfl
@[simp] theorem withAgenda_rx (s : State) (ms : List AgentMove) : (s.withAgenda ms).rx = s.rx := rfl
@[simp] theorem withAgenda_tx (s : State) (ms : List AgentMove) : (s.withAgenda ms).tx = s.tx := rfl
@[simp] theorem withAgenda_txReady (s : State) (ms : List AgentMove) : (s.withAgenda ms).txReady = s.txReady := rfl
@[simp] theorem withAgenda_hostLog (s : State) (ms : List AgentMove) : (s.withAgenda ms).hostLog = s.hostLog := rfl
@[simp] theorem withAgenda_crc8Fn (s : State) (ms : List AgentMove) : (s.withAgenda ms).crc8Fn = s.crc8Fn := rfl
@[simp] theorem withAgenda_agenda (s : State) (ms : List AgentMove) : (s.withAgenda ms).agenda = ms := rfl
@[simp] theorem withAgenda_cycle (s : State) (ms : List AgentMove) : (s.withAgenda ms).cycle = s.cycle := rfl
@[simp] theorem withAgenda_freeCtr (s : State) (ms : List AgentMove) : (s.withAgenda ms).freeCtr = s.freeCtr := rfl

@[simp] theorem hwReset_cfgValid (s : State) : (hwReset s).cfgValid = false := rfl
@[simp] theorem hwReset_cfgLen (s : State) : (hwReset s).cfgLen = 0#8 := rfl
@[simp] theorem hwReset_rxState (s : State) : (hwReset s).rxState = .h1 := rfl
@[simp] theorem hwReset_scr (s : State) : (hwReset s).scr = resetScr s.freeCtr := rfl
@[simp] theorem hwReset_rxCursor (s : State) : (hwReset s).rxCursor = 0#9 := rfl
@[simp] theorem hwReset_busy (s : State) : (hwReset s).busy = false := rfl
@[simp] theorem hwReset_curCmd (s : State) : (hwReset s).curCmd = Config.freeCmd s.freeCtr := rfl
@[simp] theorem hwReset_txK (s : State) : (hwReset s).txK = Config.freeIndex s.freeCtr := rfl
@[simp] theorem hwReset_txCrc (s : State) : (hwReset s).txCrc = Config.freeByte (s.freeCtr + Config.scrCap) := rfl
@[simp] theorem hwReset_faulted (s : State) : (hwReset s).faulted = false := rfl
@[simp] theorem hwReset_faultReason (s : State) : (hwReset s).faultReason = Config.freeReason s.freeCtr := rfl
@[simp] theorem hwReset_recMem (s : State) : (hwReset s).recMem = s.recMem := rfl
@[simp] theorem hwReset_rx (s : State) : (hwReset s).rx = s.rx := rfl
@[simp] theorem hwReset_tx (s : State) : (hwReset s).tx = s.tx := rfl
@[simp] theorem hwReset_txReady (s : State) : (hwReset s).txReady = s.txReady := rfl
@[simp] theorem hwReset_hostLog (s : State) : (hwReset s).hostLog = s.hostLog := rfl
@[simp] theorem hwReset_crc8Fn (s : State) : (hwReset s).crc8Fn = s.crc8Fn := rfl
@[simp] theorem hwReset_agenda (s : State) : (hwReset s).agenda = s.agenda := rfl
@[simp] theorem hwReset_cycle (s : State) : (hwReset s).cycle = s.cycle := rfl
@[simp] theorem hwReset_freeCtr (s : State) : (hwReset s).freeCtr = s.freeCtr + Config.scrCap + 1 := rfl

@[simp] theorem rxPop_recLen (s : State) : (s.rxPop).recLen = s.recLen := rfl
@[simp] theorem respond_recLen (v : HostObs) (s : State) : (respond v s).recLen = s.recLen := rfl
@[simp] theorem raiseFault_recLen (r : FaultReason) (s : State) : (raiseFault r s).recLen = s.recLen := rfl
@[simp] theorem accept_recLen (c : CmdKind) (s : State) : (accept c s).recLen = s.recLen := rfl
@[simp] theorem toH1_recLen (s : State) : (toH1 s).recLen = s.recLen := rfl
@[simp] theorem copyToRec_recLen (s : State) : (copyToRec s).recLen = s.recLen := rfl
@[simp] theorem storeCrc_recLen (b : Byte) (s : State) : (storeCrc b s).recLen = s.recLen := rfl
@[simp] theorem finishFrame_recLen (s : State) : (finishFrame s).recLen = s.recLen :=
  congrArg BitVec.toNat (finishFrame_cfgLen s)
@[simp] theorem withAgenda_recLen (s : State) (ms : List AgentMove) : (s.withAgenda ms).recLen = s.recLen := rfl
@[simp] theorem withAgenda_frameLen (s : State) (ms : List AgentMove) : (s.withAgenda ms).frameLen = s.frameLen := rfl
@[simp] theorem withAgenda_rowCtx (s : State) (ms : List AgentMove) : (s.withAgenda ms).rowCtx = s.rowCtx := rfl
@[simp] theorem withAgenda_fetched (s : State) (ms : List AgentMove) : (s.withAgenda ms).fetched = s.fetched := rfl
@[simp] theorem rxPop_schedule (s : State) : (s.rxPop).schedule = s.schedule := rfl
@[simp] theorem respond_schedule (v : HostObs) (s : State) : (respond v s).schedule = s.schedule := rfl
@[simp] theorem raiseFault_schedule (r : FaultReason) (s : State) : (raiseFault r s).schedule = s.schedule := rfl
@[simp] theorem accept_schedule (c : CmdKind) (s : State) : (accept c s).schedule = s.schedule := rfl
@[simp] theorem toH1_schedule (s : State) : (toH1 s).schedule = s.schedule := rfl
@[simp] theorem copyToRec_schedule (s : State) : (copyToRec s).schedule = s.schedule := rfl
@[simp] theorem storeCrc_schedule (b : Byte) (s : State) : (storeCrc b s).schedule = s.schedule := rfl
@[simp] theorem finishFrame_schedule (s : State) : (finishFrame s).schedule = s.schedule := by
  simp [State.schedule]
@[simp] theorem withAgenda_selects (s : State) (ms : List AgentMove) (i : Instr) :
    (s.withAgenda ms).selects i = s.selects i := rfl

@[simp] theorem payload_storeCrc (b : Byte) (s : State) : (storeCrc b s).payload = s.payload :=
  Memory.readRange_write_outside _ _ (Or.inr (Nat.zero_add _).le)

/-- With the scratch store in canonical form, the CRC byte compared is the byte that arrived (R109). -/
theorem frameOk_storeCrc {s : State} (h : s.scr.wf = true) (b : Byte) :
    (storeCrc b s).frameOk = checksumOk s.crc8Fn s.payload b := by
  unfold State.frameOk
  rw [payload_storeCrc, storeCrc_crc8Fn]
  exact congrArg _ (Memory.read_write_same h s.recLen b)

end Sys2Proof.Machine
end

