-- ==== Sys2Proof/Laws/Ops.lean ====
section
/-! SUPPORT. What each shared operation can answer: if it answers a next state, then which. -/

namespace Sys2Proof.Machine

theorem onRow_of_selects {i : Instr} {s : State} {run : Result} (h : s.selects i = true) : onRow i s run = run := by
  simp [onRow, h]

theorem onRow_next {i : Instr} {s t : State} {run : Result} (h : onRow i s run = .next t) :
    s.selects i = true ∧ run = .next t := by
  unfold onRow at h
  split at h
  · exact ⟨‹_›, h⟩
  · cases h

theorem onAccept_of_accepting {s : State} {run : Result} (hb : s.busy = false) (hf : s.faulted = false) :
    onAccept s run = run := by
  simp [onAccept, hb, hf]

theorem onAccept_next {s t : State} {run : Result} (h : onAccept s run = .next t) :
    s.busy = false ∧ (s.faulted = true ∧ t = s ∨ s.faulted = false ∧ run = .next t) := by
  unfold onAccept at h
  split at h
  · cases h
  · rename_i hb
    split at h
    · rename_i hf
      cases h
      exact ⟨by simpa using hb, .inl ⟨hf, rfl⟩⟩
    · rename_i hf
      exact ⟨by simpa using hb, .inr ⟨by simpa using hf, h⟩⟩

theorem onConfigured_next {s t : State} {run : Result} (h : onConfigured s run = .next t) :
    s.cfgValid = false ∧ t = raiseFault .unconfigured s ∨ s.cfgValid = true ∧ run = .next t := by
  unfold onConfigured at h
  split at h
  · exact .inr ⟨‹_›, h⟩
  · rename_i hc
    cases h
    exact .inl ⟨by simpa using hc, rfl⟩

theorem txPush_next {b : Byte} {s t u : State} (h : txPush b s u = .next t) :
    s.txReady = false ∧ t = s ∨ s.txReady = true ∧ t = { u with tx := s.tx ++ [b] } := by
  unfold txPush at h
  split at h
  · cases h
    exact .inr ⟨‹_›, rfl⟩
  · rename_i hr
    cases h
    exact .inl ⟨by simpa using hr, rfl⟩

theorem onRecAccess_next {i : Nat} {s t u : State} (h : onRecAccess i s u = .next t) :
    i < Config.recCap ∧ (s.busy = true ∧ t = raiseFault .hazard s ∨ s.busy = false ∧ t = u) := by
  unfold onRecAccess at h
  split at h
  · cases h
  · rename_i hi
    refine ⟨by omega, ?_⟩
    split at h
    · cases h
      exact .inl ⟨‹_›, rfl⟩
    · rename_i hb
      cases h
      exact .inr ⟨by simpa using hb, rfl⟩

@[simp] theorem length_freeScr (n : Nat) : (freeScr n).length = Config.scrCap := by simp [freeScr]

theorem wf_resetScr (n : Nat) : (resetScr n).wf = true := by
  unfold resetScr
  exact Memory.wf_writeRange rfl 0 _

theorem below_resetScr (n : Nat) : (resetScr n).below Config.scrCap = true := by
  unfold resetScr
  exact Memory.below_writeRange rfl _ (by simp)

/-- The stores of the reset state are in canonical form. -/
theorem wf_reset_stores : State.reset.recMem.wf = true ∧ State.reset.scr.wf = true := ⟨rfl, rfl⟩

/-- A reset inside the copy is a reset after REC has changed at some indices below N, or a plain reset. -/
theorem hwResetInCopy_cases (s : State) :
    hwResetInCopy s = hwReset s ∨
      ∃ b rest, s.rx = b :: rest ∧ s.selects (.rxPayLast b) = true ∧
        checksumOk s.crc8Fn s.payload b = true ∧
        hwResetInCopy s =
          hwReset { s.rxPop with recMem := partialCopy s.freeCtr s.recMem 0 s.payload } := by
  unfold hwResetInCopy
  split
  · exact .inl rfl
  · split
    · rename_i b rest hrx h
      rw [Bool.and_eq_true] at h
      exact .inr ⟨b, rest, hrx, h.1, h.2, rfl⟩
    · exact .inl rfl

/-! ### Host addresses (R40, R51) -/

/-- Where the record lies in the Host's address space, the address of byte `i` is exactly `REC_BASE + i`. -/
theorem recHostAddr_toNat {n i : Nat} (h : RecFits n) (hi : i < n) :
    (recHostAddr i).toNat = Config.recBase.toNat + i := by
  unfold RecFits at h
  have hi' : i < 2 ^ Config.hostAddrW := by omega
  simp only [recHostAddr, BitVec.toNat_add, BitVec.toNat_ofNat]
  rw [Nat.mod_eq_of_lt hi', Nat.mod_eq_of_lt (by omega)]

/-! ### The schedule -/

theorem schedule_of_agenda_cons {s : State} {a : AgentMove} {rest : List AgentMove} (h : s.agenda = a :: rest) :
    s.schedule = a :: rest := by
  simp [State.schedule, h]

theorem schedule_of_agenda_nil {s : State} (h : s.agenda = []) : s.schedule = s.cycle := by
  simp [State.schedule, h]

@[simp] theorem withAgenda_nil_schedule (s : State) : (s.withAgenda []).schedule = s.cycle := rfl

@[simp] theorem withAgenda_cons_schedule (s : State) (a : AgentMove) (rest : List AgentMove) :
    (s.withAgenda (a :: rest)).schedule = a :: rest := rfl

/-- What comes next stands in the agenda or in the cycle, and so does all that comes after it. -/
theorem schedule_mem {s : State} {P : AgentMove → Prop} (ha : ∀ a ∈ s.agenda, P a) (hc : ∀ a ∈ s.cycle, P a) :
    ∀ a ∈ s.schedule, P a := by
  unfold State.schedule
  split
  · exact hc
  · rename_i h
    rwa [h] at ha

/-! ### Which row a state selects (R69, R70) -/

theorem fetched_polling_nil {s : State} (h : Polling s) (hrx : s.rx = []) : s.fetched = some .noByte := by
  simp [State.fetched, h.1, h.2, hrx]

theorem fetched_polling_cons {s : State} {b : Byte} {rest : List Byte} (h : Polling s) (hrx : s.rx = b :: rest) :
    s.fetched = some (.rxd (s.rxd b)) := by
  simp [State.fetched, h.1, h.2, hrx]

theorem fetched_sending {s : State} (h : Sending s) : s.fetched = some (.txk s.txK) := by
  simp [State.fetched, h.1, h.2]

theorem selects_iff {s : State} {i : Instr} {f : Fetched} (h : s.fetched = some f) :
    s.selects i = true ↔ decode s.rowCtx f = .instr i := by
  simp [State.selects, h]

/-- The receive row of a byte, by the receive state (R69). -/
theorem decode_rxd (s : State) (b : Byte) :
    decode s.rowCtx (.rxd (s.rxd b)) =
      match s.rxState with
      | .h1 => if b = Config.hdr1 then .instr .rxH1Sync else .instr (.rxH1Skip b)
      | .h2 => if b = Config.hdr2 then .instr .rxH2Ok else .instr (.rxH2Bad b)
      | .len => if b = s.cfgLen then .instr (.rxLenOk b) else .instr (.rxLenBad b)
      | .pay =>
        if s.rxCursor.toNat < s.recLen then .instr (.rxPayStore b)
        else if s.rxCursor.toNat = s.recLen then .instr (.rxPayLast b)
        else .reject .noReceiveRow := by
  simp only [decode, decodeRxd, State.rxd, hiField_word10, loField_word10, RxState.ofCode_code]
  rfl

/-- A state that selects RX_PAY_LAST on the byte that waits has a POLL in flight in PAY with the cursor at N. -/
theorem selects_rxPayLast {s : State} {b : Byte} {rest : List Byte} (hrx : s.rx = b :: rest)
    (h : s.selects (.rxPayLast b) = true) : Polling s ∧ s.rxState = .pay ∧ s.rxCursor.toNat = s.recLen := by
  have hp : Polling s := by
    unfold State.selects State.fetched at h
    cases hb : s.busy with
    | false => simp [hb] at h
    | true =>
      cases hc : s.curCmd with
      | poll => exact ⟨hb, hc⟩
      | begin => simp [hb, hc] at h
      | send =>
        simp only [hb, hc, if_true, beq_iff_eq, decode, decodeTxk] at h
        repeat' split at h
        all_goals cases h
  have hd := (selects_iff (fetched_polling_cons hp hrx)).1 h
  rw [decode_rxd] at hd
  cases hs : s.rxState <;> simp only [hs] at hd
  · split at hd <;> cases hd
  · split at hd <;> cases hd
  · split at hd <;> cases hd
  · split at hd
    · cases hd
    · split at hd
      · exact ⟨hp, rfl, ‹_›⟩
      · cases hd

end Sys2Proof.Machine
end

