-- ==== Sys2Proof/Laws/PerInstr.lean ====
section
/-! SUPPORT. Per-instruction lemmas: decoding the words of a well-formed instruction gives the instruction back. -/

namespace Sys2Proof.Laws.DecodeEncode

open Sys2Proof

/-- Decoding undoes encoding, under every pair of registers that the instruction is well formed with. -/
def Statement (i : Instr) : Prop := ∀ c, WellFormed c i = true → decode c (encode c i) = .instr i

theorem begin (n : Byte) : Statement (.begin n) := by
  intro c _
  simp [decode, encode, decodeCmd]

theorem send : Statement .send := fun _ _ => rfl

theorem poll : Statement .poll := fun _ _ => rfl

theorem rxEmpty : Statement .rxEmpty := fun _ _ => rfl

theorem rxH1Sync : Statement .rxH1Sync := fun _ _ => rfl

theorem rxH1Skip (b : Byte) : Statement (.rxH1Skip b) := by
  intro c h
  have hb : b ≠ Config.hdr1 := by simpa [WellFormed] using h
  simp [decode, encode, decodeRxd, hb]

theorem rxH2Ok : Statement .rxH2Ok := fun _ _ => rfl

theorem rxH2Bad (b : Byte) : Statement (.rxH2Bad b) := by
  intro c h
  have hb : b ≠ Config.hdr2 := by simpa [WellFormed] using h
  simp [decode, encode, decodeRxd, hb]

theorem rxLenOk (b : Byte) : Statement (.rxLenOk b) := by
  intro c h
  have hb : b = c.cfgLen := by simpa [WellFormed] using h
  simp [decode, encode, decodeRxd, hb]

theorem rxLenBad (b : Byte) : Statement (.rxLenBad b) := by
  intro c h
  have hb : b ≠ c.cfgLen := by simpa [WellFormed] using h
  simp [decode, encode, decodeRxd, hb]

theorem rxPayStore (b : Byte) : Statement (.rxPayStore b) := by
  intro c h
  have hc : c.cursor.toNat < c.cfgLen.toNat := by simpa [WellFormed] using h
  simp [decode, encode, decodeRxd, hc]

theorem rxPayLast (b : Byte) : Statement (.rxPayLast b) := by
  intro c h
  have hc : c.cursor.toNat = c.cfgLen.toNat := by simpa [WellFormed] using h
  simp [decode, encode, decodeRxd, hc]

theorem txHdr1 : Statement .txHdr1 := fun _ _ => rfl

theorem txHdr2 : Statement .txHdr2 := fun _ _ => rfl

theorem txLen : Statement .txLen := fun _ _ => rfl

theorem txPay (i : Byte) : Statement (.txPay i) := by
  intro c h
  have hc : i.toNat < c.cfgLen.toNat := by simpa [WellFormed] using h
  have hlt := i.isLt
  have hk : (i.zeroExtend 9 + 3#9).toNat = i.toNat + 3 := by
    simp only [BitVec.toNat_add, BitVec.truncate_eq_setWidth, BitVec.toNat_setWidth, BitVec.toNat_ofNat]
    omega
  have := decodeTxk_pay (c := c) (k := i.zeroExtend 9 + 3#9) (by omega) (by omega)
  rw [hk, Nat.add_sub_cancel] at this
  simpa [decode, encode] using this

theorem txCrc : Statement .txCrc := by
  intro c _
  have hlt := c.cfgLen.isLt
  refine decodeTxk_crc ?_
  simp only [BitVec.toNat_add, BitVec.truncate_eq_setWidth, BitVec.toNat_setWidth, BitVec.toNat_ofNat]
  omega

end Sys2Proof.Laws.DecodeEncode
end

