-- ==== Sys2Proof/Laws/Step.lean ====
section
/-! SUPPORT. What one step can do, said once: the rows of a POLL, the rows of a SEND, and the agents' steps. -/

namespace Sys2Proof.Machine

/-- A step of the Block with a row selected is exec of the row. -/
theorem blockStep_row {s : State} {f : Fetched} {i : Instr} (hf : s.fetched = some f)
    (hd : decode s.rowCtx f = .instr i) : blockStep s = exec i s := by
  have hb : s.busy = true := by
    unfold State.fetched at hf
    split at hf
    · assumption
    · cases hf
  simp [blockStep, hb, hf, hd]

/-- Presenting a word to an unfaulted Block is exec of the command it decodes to. -/
theorem presentCommand_run {s : State} {w : Word10} {i : Instr} (hf : s.faulted = false)
    (hd : decodeCmd w = .instr i) : presentCommand w s = exec i s := by
  simp [presentCommand, hf, decode, hd]

/-- Presenting a reserved word to an unfaulted Block. -/
theorem presentCommand_reserved {s : State} {w : Word10} {r : Reject} (hf : s.faulted = false)
    (hd : decodeCmd w = .reject r) : presentCommand w s = .next (raiseFault .badCmd s) := by
  simp [presentCommand, hf, decode, hd]

/-- A step whose first action does not wait is that action. -/
theorem step_agent {s : State} {a : AgentMove} {rest : List AgentMove} (ha : s.schedule = a :: rest)
    (hw : (a.waits && s.busy) = false) : step s = agentStep a (s.withAgenda rest) := by
  unfold step agendaStep
  rw [ha]
  simp [hw]

/-- What a POLL's micro-step does (R113). -/
inductive PollRow (s : State) : State → Prop where
  | empty (hrx : s.rx = []) : PollRow s (respond (.ok false) s)
  | h1Sync {b rest} (hst : s.rxState = .h1) (hrx : s.rx = b :: rest) (hb : b = Config.hdr1) :
      PollRow s { s.rxPop with rxState := .h2 }
  | h1Skip {b rest} (hst : s.rxState = .h1) (hrx : s.rx = b :: rest) (hb : b ≠ Config.hdr1) : PollRow s s.rxPop
  | h2Ok {b rest} (hst : s.rxState = .h2) (hrx : s.rx = b :: rest) (hb : b = Config.hdr2) :
      PollRow s { s.rxPop with rxState := .len }
  | h2Bad {b rest} (hst : s.rxState = .h2) (hrx : s.rx = b :: rest) (hb : b ≠ Config.hdr2) :
      PollRow s (respond (.ok false) (toH1 s.rxPop))
  | lenOk {b rest} (hst : s.rxState = .len) (hrx : s.rx = b :: rest) (hb : b = s.cfgLen) :
      PollRow s { s.rxPop with rxState := .pay, rxCursor := 0#9 }
  | lenBad {b rest} (hst : s.rxState = .len) (hrx : s.rx = b :: rest) (hb : b ≠ s.cfgLen) :
      PollRow s (respond (.ok false) (toH1 s.rxPop))
  | payStore {b rest} (hst : s.rxState = .pay) (hrx : s.rx = b :: rest) (hc : s.rxCursor.toNat < s.recLen) :
      PollRow s { s.rxPop with scr := s.scr.write s.rxCursor.toNat b, rxCursor := s.rxCursor + 1#9 }
  | payLast {b rest} (hst : s.rxState = .pay) (hrx : s.rx = b :: rest) (hc : s.rxCursor.toNat = s.recLen) :
      PollRow s (finishFrame (storeCrc b s))

/-- What a SEND's micro-step does (R91-R96). -/
inductive SendRow (s : State) : State → Prop where
  | hold (hr : s.txReady = false) (hk : s.txK.toNat < s.frameLen) : SendRow s s
  | hdr1 (hr : s.txReady = true) (hk : s.txK.toNat = 0) :
      SendRow s { s with txK := 1#9, tx := s.tx ++ [Config.hdr1] }
  | hdr2 (hr : s.txReady = true) (hk : s.txK.toNat = 1) :
      SendRow s { s with txK := 2#9, tx := s.tx ++ [Config.hdr2] }
  | len (hr : s.txReady = true) (hk : s.txK.toNat = 2) :
      SendRow s { s with txK := 3#9, tx := s.tx ++ [s.cfgLen] }
  | pay (hr : s.txReady = true) (h3 : 3 ≤ s.txK.toNat) (hk : s.txK.toNat < s.recLen + 3) :
      SendRow s
        { s with
          txCrc := s.crc8Fn.update (s.recMem.readRange 0 (s.txK.toNat - 3)) s.txCrc (s.recMem.read (s.txK.toNat - 3))
          txK := s.txK + 1#9
          tx := s.tx ++ [s.recMem.read (s.txK.toNat - 3)] }
  | crc (hr : s.txReady = true) (hk : s.txK.toNat = s.recLen + 3) :
      SendRow s
        { s with
          txK := s.cfgLen.zeroExtend 9 + 4#9, tx := s.tx ++ [s.txCrc], busy := false
          hostLog := s.hostLog ++ [.done] }
  | past (hk : s.recLen + 3 < s.txK.toNat) : SendRow s (sendDone s)

/-- What a step of the Block does. -/
inductive BlockCase (s : State) : State → Prop where
  | idle (h : s.busy = false) : BlockCase s s
  | poll {t} (h : Polling s) (row : PollRow s t) : BlockCase s t
  | send {t} (h : Sending s) (row : SendRow s t) : BlockCase s t

theorem txPay_index {s : State} (h3 : 3 ≤ s.txK.toNat) (hk : s.txK.toNat < s.recLen + 3) :
    (BitVec.ofNat 8 (s.txK.toNat - 3)).toNat = s.txK.toNat - 3 := by
  have : s.recLen < 256 := s.cfgLen.isLt
  simp only [BitVec.toNat_ofNat]
  omega

/-- A POLL's micro-step, as a function of what it finds: it always answers where the cursor is in its range (R26). -/
theorem blockStep_poll {s : State} (h : Polling s)
    (hpay : s.rxState = .pay → s.rx ≠ [] → s.rxCursor.toNat ≤ s.recLen) :
    ∃ t, blockStep s = .next t ∧ PollRow s t := by
  have hb := h.1
  cases hrx : s.rx with
  | nil =>
    have hf := fetched_polling_nil h hrx
    refine ⟨_, ?_, .empty hrx⟩
    simp only [blockStep, hb, hf, decode, if_true, exec, execRxEmpty]
    exact onRow_of_selects ((selects_iff hf).2 rfl)
  | cons b rest =>
    have hf := fetched_polling_cons h hrx
    have hd := decode_rxd s b
    cases hst : s.rxState with
    | h1 =>
      by_cases hb1 : b = Config.hdr1
      · simp only [hst, hb1, if_true] at hd
        refine ⟨_, ?_, .h1Sync hst hrx hb1⟩
        simp only [blockStep, hb, if_true, hf, hb1, hd, exec, execRxH1Sync]
        exact onRow_of_selects ((selects_iff hf).2 (by rw [hb1, hd]))
      · simp only [hst, hb1, if_false] at hd
        refine ⟨_, ?_, .h1Skip hst hrx hb1⟩
        simp only [blockStep, hb, if_true, hf, hd, exec, execRxH1Skip]
        exact onRow_of_selects ((selects_iff hf).2 hd)
    | h2 =>
      by_cases hb1 : b = Config.hdr2
      · simp only [hst, hb1, if_true] at hd
        refine ⟨_, ?_, .h2Ok hst hrx hb1⟩
        simp only [blockStep, hb, if_true, hf, hb1, hd, exec, execRxH2Ok]
        exact onRow_of_selects ((selects_iff hf).2 (by rw [hb1, hd]))
      · simp only [hst, hb1, if_false] at hd
        refine ⟨_, ?_, .h2Bad hst hrx hb1⟩
        simp only [blockStep, hb, if_true, hf, hd, exec, execRxH2Bad]
        exact onRow_of_selects ((selects_iff hf).2 hd)
    | len =>
      by_cases hb1 : b = s.cfgLen
      · simp only [hst, hb1, if_true] at hd
        refine ⟨_, ?_, .lenOk hst hrx hb1⟩
        simp only [blockStep, hb, if_true, hf, hb1, hd, exec, execRxLenOk]
        exact onRow_of_selects ((selects_iff hf).2 (by rw [hb1, hd]))
      · simp only [hst, hb1, if_false] at hd
        refine ⟨_, ?_, .lenBad hst hrx hb1⟩
        simp only [blockStep, hb, if_true, hf, hd, exec, execRxLenBad]
        exact onRow_of_selects ((selects_iff hf).2 hd)
    | pay =>
      by_cases hlt : s.rxCursor.toNat < s.recLen
      · simp only [hst, hlt, if_true] at hd
        refine ⟨_, ?_, .payStore hst hrx hlt⟩
        simp only [blockStep, hb, if_true, hf, hd, exec, execRxPayStore]
        exact onRow_of_selects ((selects_iff hf).2 hd)
      · have heq : s.rxCursor.toNat = s.recLen := by
          have := hpay hst (by simp [hrx])
          omega
        rw [hst] at hd
        replace hd := hd.trans ((if_neg hlt).trans (if_pos heq))
        refine ⟨_, ?_, .payLast hst hrx heq⟩
        simp only [blockStep, hb, if_true, hf, hd, exec, execRxPayLast]
        exact onRow_of_selects ((selects_iff hf).2 hd)

/-- A SEND's micro-step always answers (R90-R96). -/
theorem blockStep_send {s : State} (h : Sending s) : ∃ t, blockStep s = .next t ∧ SendRow s t := by
  have hb := h.1
  have hf := fetched_sending h
  have hlt : s.recLen < 256 := s.cfgLen.isLt
  have key : ∀ {i : Instr} {run : Result}, decode s.rowCtx (.txk s.txK) = .instr i → exec i s = onRow i s run →
      blockStep s = run := by
    intro i run hd he
    simp only [blockStep, hb, if_true, hf, hd, he]
    exact onRow_of_selects ((selects_iff hf).2 hd)
  have push : ∀ {b : Byte} {u : State}, s.txK.toNat < s.frameLen → blockStep s = txPush b s u →
      SendRow s { u with tx := s.tx ++ [b] } ∨ s.txReady = false → ∃ t, blockStep s = .next t ∧ SendRow s t := by
    intro b u hk he hrow
    cases hr : s.txReady with
    | false => exact ⟨s, by simp [he, txPush, hr], .hold hr hk⟩
    | true =>
      refine ⟨_, by rw [he, txPush, hr]; rfl, ?_⟩
      simpa [hr] using hrow
  have ready : s.txReady = true ∨ s.txReady = false := by cases s.txReady <;> simp
  by_cases h0 : s.txK.toNat = 0
  · have e := key (i := .txHdr1) (by simp [decode, decodeTxk, h0]) rfl
    exact push (by simp [State.frameLen]; omega) e (ready.imp (fun hr => .hdr1 hr h0) id)
  by_cases h1 : s.txK.toNat = 1
  · have e := key (i := .txHdr2) (by simp [decode, decodeTxk, h1]) rfl
    exact push (by simp [State.frameLen]; omega) e (ready.imp (fun hr => .hdr2 hr h1) id)
  by_cases h2 : s.txK.toNat = 2
  · have e := key (i := .txLen) (by simp [decode, decodeTxk, h2]) rfl
    exact push (by simp [State.frameLen]; omega) e (ready.imp (fun hr => .len hr h2) id)
  by_cases h3 : s.txK.toNat < s.recLen + 3
  · have hi := txPay_index (s := s) (by omega) h3
    refine push (by simp [State.frameLen]; omega) (key (decodeTxk_pay (by omega) h3) rfl)
      (ready.imp (fun hr => ?_) id)
    have := SendRow.pay (s := s) hr (by omega) h3
    simpa [hi] using this
  by_cases h4 : s.txK.toNat = s.recLen + 3
  · exact push (by simp [State.frameLen]; omega) (key (decodeTxk_crc h4) rfl)
      (ready.imp (fun hr => .crc hr h4) id)
  · refine ⟨_, ?_, .past (by omega)⟩
    have h3' : ¬ s.txK.toNat < s.rowCtx.cfgLen.toNat + 3 := h3
    have h4' : ¬ s.txK.toNat = s.rowCtx.cfgLen.toNat + 3 := h4
    have hd : decode s.rowCtx (.txk s.txK) = .reject .noTransmitRow := by
      simp [decode, decodeTxk, h0, h1, h2, h3', h4']
    simp [blockStep, hb, hf, hd]

/-- In PAY with the cursor past N no row is selected, and the Block stops by name. -/
theorem blockStep_past_cursor {s : State} {b : Byte} {rest : List Byte} (h : Polling s) (hrx : s.rx = b :: rest)
    (hst : s.rxState = .pay) (hc : s.recLen < s.rxCursor.toNat) : blockStep s = .refused .noRow := by
  have hd := decode_rxd s b
  have h1 : ¬ s.rxCursor.toNat < s.recLen := by omega
  have h2 : ¬ s.rxCursor.toNat = s.recLen := by omega
  simp only [hst, h1, h2, if_false] at hd
  simp [blockStep, h.1, fetched_polling_cons h hrx, hd]

/-- Everything a step of the Block can do. -/
theorem blockStep_next {s t : State} (h : blockStep s = .next t) : BlockCase s t := by
  by_cases hb : s.busy = true
  · cases hcmd : s.curCmd with
    | begin => simp [blockStep, hb, State.fetched, hcmd] at h
    | send =>
      obtain ⟨u, hu, row⟩ := blockStep_send (s := s) ⟨hb, hcmd⟩
      rw [hu] at h
      cases h
      exact .send ⟨hb, hcmd⟩ row
    | poll =>
      by_cases hbad : s.rxState = .pay ∧ s.rx ≠ [] ∧ s.recLen < s.rxCursor.toNat
      · obtain ⟨hst, hne, hc⟩ := hbad
        obtain ⟨b, rest, hrx⟩ := List.exists_cons_of_ne_nil hne
        rw [blockStep_past_cursor ⟨hb, hcmd⟩ hrx hst hc] at h
        cases h
      · obtain ⟨u, hu, row⟩ := blockStep_poll (s := s) ⟨hb, hcmd⟩ fun hst hne => by
          by_contra hc
          exact hbad ⟨hst, hne, by omega⟩
        rw [hu] at h
        cases h
        exact .poll ⟨hb, hcmd⟩ row
  · have hb' : s.busy = false := by simpa using hb
    simp only [blockStep, hb', Bool.false_eq_true, if_false] at h
    cases h
    exact .idle hb'

/-- Everything the Host's presenting a command to a machine that is idle can do (R64, R152, R153). -/
inductive CommandCase (w : Word10) (s : State) : State → Prop where
  | away (hf : s.faulted = true) : CommandCase w s s
  | badCmd (hf : s.faulted = false) (hd : ∃ r, decodeCmd w = .reject r) : CommandCase w s (raiseFault .badCmd s)
  | badLen (hf : s.faulted = false) (hd : decodeCmd w = .instr (.begin 0#8)) : CommandCase w s (raiseFault .badLen s)
  | begin {n} (hf : s.faulted = false) (hn : n ≠ 0#8) (hd : decodeCmd w = .instr (.begin n)) :
      CommandCase w s (respond .done (beginEffect n s))
  | unconfigured (hf : s.faulted = false) (hc : s.cfgValid = false)
      (hd : decodeCmd w = .instr .send ∨ decodeCmd w = .instr .poll) : CommandCase w s (raiseFault .unconfigured s)
  | send (hf : s.faulted = false) (hc : s.cfgValid = true) (hd : decodeCmd w = .instr .send) :
      CommandCase w s { accept .send s with txK := 0#9, txCrc := s.crc8Fn.value [] }
  | poll (hf : s.faulted = false) (hc : s.cfgValid = true) (hd : decodeCmd w = .instr .poll) :
      CommandCase w s (accept .poll s)

/-- Presenting a command to a machine that is idle always answers. -/
theorem presentCommand_total (w : Word10) {s : State} (hb : s.busy = false) :
    ∃ t, presentCommand w s = .next t ∧ CommandCase w s t := by
  cases hf : s.faulted with
  | true => exact ⟨s, by simp [presentCommand, hf], .away hf⟩
  | false =>
    have run : ∀ {i : Instr}, decodeCmd w = .instr i → presentCommand w s = exec i s := presentCommand_run hf
    have bad : ∀ {r : Reject}, decodeCmd w = .reject r → presentCommand w s = .next (raiseFault .badCmd s) :=
      presentCommand_reserved hf
    rcases decodeCmd_cases w with hd | hd | hd | hd | hd
    · exact ⟨_, bad hd, .badCmd hf ⟨_, hd⟩⟩
    · exact ⟨_, bad hd, .badCmd hf ⟨_, hd⟩⟩
    · by_cases hn : loField w = 0#8
      · refine ⟨raiseFault .badLen s, ?_, .badLen hf (by rw [hd, hn])⟩
        rw [run hd]
        simp only [exec, execBegin, onAccept_of_accepting hb hf, hn, if_true]
      · refine ⟨_, ?_, .begin hf hn hd⟩
        rw [run hd]
        simp only [exec, execBegin, onAccept_of_accepting hb hf, hn, if_false]
    · cases hc : s.cfgValid with
      | true =>
        refine ⟨_, ?_, .send hf hc hd⟩
        rw [run hd]
        simp only [exec, execSend, onAccept_of_accepting hb hf, onConfigured, hc, if_true]
      | false =>
        refine ⟨_, ?_, .unconfigured hf hc (.inl hd)⟩
        rw [run hd]
        simp only [exec, execSend, onAccept_of_accepting hb hf, onConfigured, hc, Bool.false_eq_true, if_false]
    · cases hc : s.cfgValid with
      | true =>
        refine ⟨_, ?_, .poll hf hc hd⟩
        rw [run hd]
        simp only [exec, execPoll, onAccept_of_accepting hb hf, onConfigured, hc, if_true]
      | false =>
        refine ⟨_, ?_, .unconfigured hf hc (.inr hd)⟩
        rw [run hd]
        simp only [exec, execPoll, onAccept_of_accepting hb hf, onConfigured, hc, Bool.false_eq_true, if_false]

theorem presentCommand_next {w : Word10} {s t : State} (hb : s.busy = false) (h : presentCommand w s = .next t) :
    CommandCase w s t := by
  obtain ⟨u, hu, hc⟩ := presentCommand_total w hb
  rw [hu] at h
  cases h
  exact hc

/-- Everything an action at the head of the schedule can do, the Host's waiting apart. -/
inductive AgentCase (s : State) : AgentMove → State → Prop where
  | issue {w t} (hb : s.busy = false) (h : CommandCase w s t) : AgentCase s (.issue w) t
  | await (hb : s.busy = false) : AgentCase s .await s
  | hazardRead {i} (hi : i < Config.recCap) (hb : s.busy = true) : AgentCase s (.hostRead i) (raiseFault .hazard s)
  | hostRead {i} (hi : i < Config.recCap) (hb : s.busy = false) :
      AgentCase s (.hostRead i) { s with hostLog := s.hostLog ++ [.recByte i (s.recMem.read i)] }
  | hazardWrite {i v} (hi : i < Config.recCap) (hb : s.busy = true) :
      AgentCase s (.hostWrite i v) (raiseFault .hazard s)
  | hostWrite {i v} (hi : i < Config.recCap) (hb : s.busy = false) :
      AgentCase s (.hostWrite i v) { s with recMem := s.recMem.write i v }
  | rxAppend {bs} : AgentCase s (.rxAppend bs) { s with rx := s.rx ++ bs }
  | txReady {r} : AgentCase s (.txReady r) { s with txReady := r }
  | txTake : AgentCase s .txTake { s with tx := s.tx.tail }
  | block {t} (h : BlockCase s t) : AgentCase s .block t
  | hwReset : AgentCase s .hwReset (hwReset s)
  | hwResetInCopy : AgentCase s .hwResetInCopy (hwResetInCopy s)

/-- Everything a step can do: a move of the Block that leaves the schedule as it is, or the first action of the schedule. -/
inductive StepCase (s : State) : State → Prop where
  | block {t} (ha : s.schedule = [] ∨ ∃ a rest, s.schedule = a :: rest ∧ a.waits = true ∧ s.busy = true)
      (h : BlockCase s t) : StepCase s t
  | action {a rest t} (ha : s.schedule = a :: rest) (h : AgentCase (s.withAgenda rest) a t) : StepCase s t

theorem step_next {s t : State} (h : step s = .next t) : StepCase s t := by
  unfold step agendaStep at h
  split at h
  · rename_i ha
    exact .block (.inl ha) (blockStep_next h)
  · rename_i a rest ha
    split at h
    · rename_i hw
      rw [Bool.and_eq_true] at hw
      exact .block (.inr ⟨a, rest, ha, hw.1, hw.2⟩) (blockStep_next h)
    · rename_i hw
      refine .action ha ?_
      cases a with
      | issue w =>
        have hb : s.busy = false := by simpa [AgentMove.waits] using hw
        exact .issue hb (presentCommand_next hb h)
      | await =>
        have hb : s.busy = false := by simpa [AgentMove.waits] using hw
        cases h
        exact .await hb
      | hostRead i =>
        obtain ⟨hi, ⟨hb, rfl⟩ | ⟨hb, rfl⟩⟩ := onRecAccess_next h
        · exact .hazardRead hi hb
        · exact .hostRead hi hb
      | hostWrite i v =>
        obtain ⟨hi, ⟨hb, rfl⟩ | ⟨hb, rfl⟩⟩ := onRecAccess_next h
        · exact .hazardWrite hi hb
        · exact .hostWrite hi hb
      | rxAppend bs => cases h; exact .rxAppend
      | txReady r => cases h; exact .txReady
      | txTake => cases h; exact .txTake
      | block => exact .block (blockStep_next h)
      | hwReset => cases h; exact .hwReset
      | hwResetInCopy => cases h; exact .hwResetInCopy

/-- Where the schedule is empty, or the Host waits, a step is a move of the Block. -/
theorem step_block {s : State}
    (h : s.schedule = [] ∨ ∃ a rest, s.schedule = a :: rest ∧ a.waits = true ∧ s.busy = true) : step s = blockStep s := by
  unfold step agendaStep
  rcases h with h | ⟨a, rest, h, hw, hb⟩
  · rw [h]
  · rw [h]
    simp [hw, hb]

/-- While a command is in flight and no other agent acts, a step is a move of the Block. -/
theorem step_undisturbed {s : State} (h : Undisturbed s) (hb : s.busy = true) : step s = blockStep s := by
  refine step_block ?_
  unfold Undisturbed at h
  cases hs : s.schedule with
  | nil => exact .inl rfl
  | cons a rest => exact .inr ⟨a, rest, rfl, h a (by rw [hs]; rfl), hb⟩

theorem runSteps_succ {k : Nat} {s t : State} (h : step s = .next t) : runSteps (k + 1) s = runSteps k t := by
  simp [runSteps, h]

theorem runSteps_add {j k : Nat} {s t : State} (h : runSteps j s = .next t) : runSteps (j + k) s = runSteps k t := by
  induction j generalizing s with
  | zero => cases h; simp
  | succ j ih =>
    rw [Nat.succ_add]
    cases hs : step s with
    | next u =>
      rw [runSteps_succ hs] at h ⊢
      exact ih h
    | fault r => simp [runSteps, hs] at h
    | refused r => simp [runSteps, hs] at h

/-- A property that every step keeps holds at the end of every run. -/
theorem runSteps_invariant {P : State → Prop} (hstep : ∀ s t, P s → step s = .next t → P t) {k : Nat} {s t : State}
    (hs : P s) (h : runSteps k s = .next t) : P t := by
  induction k generalizing s with
  | zero => cases h; exact hs
  | succ k ih =>
    unfold runSteps at h
    cases hu : step s with
    | next u => rw [hu] at h; exact ih (hstep s u hs hu) h
    | fault r => rw [hu] at h; cases h
    | refused r => rw [hu] at h; cases h

/-- A run of the model is a run of the host's core. -/
theorem runSteps_eq_core_run (k : Nat) (s : State) : runSteps k s = Sys2Proof.core.run k s := by
  induction k generalizing s with
  | zero => rfl
  | succ k ih =>
    have hcore : Sys2Proof.core.step s = step s := rfl
    simp only [runSteps, Host.Core.run, hcore]
    cases step s with
    | next t => exact ih t
    | fault r => rfl
    | refused r => rfl

end Sys2Proof.Machine
end

