-- ==== Sys2Proof/Tests/Slice0.lean ====
section
/-! SUPPORT. Small tests: ill-formed instructions, words written out from the spec, single steps against the vectors of
95_test_vectors.md, and a witness for the hypotheses of each obligation. The expected values are the spec's: a comment
names the vector or the rule. -/

open Sys2Proof Sys2Proof.Machine

namespace Sys2Proof.Tests

/-! ### States -/

/-- Configured with record length `n`, idle in H1. -/
def idle (n : Byte) : State := { State.reset with cfgValid := true, cfgLen := n }

/-- The record `11 22 33` of W1. -/
def record3 : Memory := [(0, 0x11#8), (1, 0x22#8), (2, 0x33#8)]

/-- A POLL in flight. -/
def polling (n : Byte) (st : RxState) (cur : Index9) (scr : Memory) (rx : List Byte) : State :=
  { idle n with busy := true, curCmd := .poll, rxState := st, rxCursor := cur, scr := scr, rx := rx }

/-- A SEND in flight with REC = `11 22 33`, at `tx_k` = `k` with running CRC `c`. -/
def sending (k : Index9) (c : Byte) (ready : Bool) : State :=
  { idle 3#8 with busy := true, curCmd := .send, recMem := record3, txK := k, txCrc := c, txReady := ready }

/-- The next state of an answer, if it is one. -/
def nextOf : Result → Option State
  | .next t => some t
  | _ => none

/-- A check of the invariant by evaluation. -/
def coherentCheck (s : State) : Bool :=
  s.recMem.wf && s.recMem.below Config.recCap && s.scr.wf && s.scr.below Config.scrCap &&
  (s.rxState == .pay || s.rxCursor == 0#9) && decide (s.rxCursor.toNat ≤ s.recLen) &&
  (s.cfgValid == false || s.cfgLen != 0#8) && (s.cfgValid || (s.cfgLen == 0#8 && s.rxState == .h1)) &&
  (s.busy == false || (s.cfgValid && s.faulted == false && s.curCmd != .begin)) &&
  (s.busy == false || s.curCmd != .send ||
    (decide (s.txK.toNat < s.frameLen) && s.txCrc == s.crc8Fn.value (s.recMem.readRange 0 (s.txK.toNat - 3))))

theorem coherent_of_check {s : State} (h : coherentCheck s = true) : Coherent s := by
  simp only [coherentCheck, Bool.and_eq_true, Bool.or_eq_true, decide_eq_true_eq, beq_iff_eq, bne_iff_ne, ne_eq] at h
  obtain ⟨⟨⟨⟨⟨⟨⟨⟨⟨h1, h2⟩, h3⟩, h4⟩, h5⟩, h6⟩, h7⟩, h8⟩, h9⟩, h10⟩ := h
  refine ⟨h1, h2, h3, h4, fun hs => h5.resolve_left hs, h6, fun hc => ?_, fun hc => ?_, fun hb => ?_, fun hb => ?_,
    fun hb => ?_, fun hs => ?_, fun hs => ?_⟩
  · simpa [hc] using h7
  · simpa [hc] using h8
  all_goals first
    | (simp [hb] at h9; simp [h9])
    | (obtain ⟨hb, hc⟩ := hs; simp [hb, hc] at h10; exact h10.1)
    | (obtain ⟨hb, hc⟩ := hs; simp [hb, hc] at h10; exact h10.2)

/-! ### Ill-formed instructions (R69, R70): each is refused by its check -/

theorem test_wf_h1_skip_of_header1 : WellFormed ⟨3#8, 0#9⟩ (.rxH1Skip 0x06#8) = false := by decide
theorem test_wf_h2_bad_of_header2 : WellFormed ⟨3#8, 0#9⟩ (.rxH2Bad 0x85#8) = false := by decide
theorem test_wf_len_ok_of_other_length : WellFormed ⟨3#8, 0#9⟩ (.rxLenOk 4#8) = false := by decide
theorem test_wf_len_bad_of_own_length : WellFormed ⟨3#8, 0#9⟩ (.rxLenBad 3#8) = false := by decide
theorem test_wf_pay_store_at_end : WellFormed ⟨3#8, 3#9⟩ (.rxPayStore 0#8) = false := by decide
theorem test_wf_pay_last_before_end : WellFormed ⟨3#8, 2#9⟩ (.rxPayLast 0#8) = false := by decide
theorem test_wf_tx_pay_past_record : WellFormed ⟨3#8, 0#9⟩ (.txPay 3#8) = false := by decide
theorem test_wf_all_bytes_at_their_bounds :
    WellFormed ⟨255#8, 254#9⟩ (.rxPayStore 0x06#8) = true ∧ WellFormed ⟨255#8, 255#9⟩ (.rxPayLast 0x85#8) = true ∧
    WellFormed ⟨255#8, 0#9⟩ (.txPay 254#8) = true ∧ WellFormed ⟨6#8, 0#9⟩ (.rxLenOk 0x06#8) = true ∧
    WellFormed ⟨0#8, 0#9⟩ (.begin 0#8) = true := by decide

/-! ### Decoding: words written out bit by bit from R61, R69 and R70 -/

/-- C-1, C-2, C-3, C-4, C-5. -/
theorem test_decode_commands :
    decodeCmd 0b0100000011#10 = .instr (.begin 3#8) ∧ decodeCmd 0b0111111111#10 = .instr (.begin 255#8) ∧
    decodeCmd 0b0100000000#10 = .instr (.begin 0#8) ∧ decodeCmd 0b1000000000#10 = .instr .send ∧
    decodeCmd 0b1100000000#10 = .instr .poll := by decide

/-- C-6, C-7, C-8, C-9. -/
theorem test_reject_commands :
    decodeCmd 0b1000000001#10 = .reject .reservedOperand ∧ decodeCmd 0b1111111111#10 = .reject .reservedOperand ∧
    decodeCmd 0b0000000000#10 = .reject .reservedOp ∧ decodeCmd 0b0010101011#10 = .reject .reservedOp := by decide

/-- R69, with N = 2 and with N = 6 (R-6d). -/
theorem test_decode_receive :
    decode ⟨2#8, 1#9⟩ .noByte = .instr .rxEmpty ∧ decodeRxd ⟨2#8, 0#9⟩ 0b0000000110#10 = .instr .rxH1Sync ∧
    decodeRxd ⟨2#8, 0#9⟩ 0b0010000101#10 = .instr (.rxH1Skip 0x85#8) ∧
    decodeRxd ⟨2#8, 0#9⟩ 0b0110000101#10 = .instr .rxH2Ok ∧
    decodeRxd ⟨2#8, 0#9⟩ 0b0100000110#10 = .instr (.rxH2Bad 0x06#8) ∧
    decodeRxd ⟨6#8, 0#9⟩ 0b1000000110#10 = .instr (.rxLenOk 0x06#8) ∧
    decodeRxd ⟨2#8, 0#9⟩ 0b1000000000#10 = .instr (.rxLenBad 0x00#8) ∧
    decodeRxd ⟨2#8, 1#9⟩ 0b1110000101#10 = .instr (.rxPayStore 0x85#8) ∧
    decodeRxd ⟨2#8, 2#9⟩ 0b1100011011#10 = .instr (.rxPayLast 0x1B#8) := by decide

/-- R70, with N = 1 and N = 255: the last payload byte is at N+2 and the CRC at N+3. -/
theorem test_decode_transmit :
    decodeTxk ⟨255#8, 0#9⟩ 0b000000000#9 = .instr .txHdr1 ∧ decodeTxk ⟨255#8, 0#9⟩ 0b000000001#9 = .instr .txHdr2 ∧
    decodeTxk ⟨255#8, 0#9⟩ 0b000000010#9 = .instr .txLen ∧ decodeTxk ⟨255#8, 0#9⟩ 0b000000011#9 = .instr (.txPay 0#8) ∧
    decodeTxk ⟨255#8, 0#9⟩ 0b100000001#9 = .instr (.txPay 254#8) ∧
    decodeTxk ⟨255#8, 0#9⟩ 0b100000010#9 = .instr .txCrc ∧ decodeTxk ⟨1#8, 0#9⟩ 0b000000100#9 = .instr .txCrc := by decide

/-- R26 and R30: a cursor past N, and `tx_k` past N+3, select no row. -/
theorem test_reject_rows :
    decodeRxd ⟨2#8, 3#9⟩ 0b1100000000#10 = .reject .noReceiveRow ∧
    decodeTxk ⟨255#8, 0#9⟩ 0b100000011#9 = .reject .noTransmitRow := by decide

/-! ### The checksum: K-1 to K-14 -/

theorem test_crc_vectors :
    crc8 [0x31, 0x32, 0x33, 0x34, 0x35, 0x36, 0x37, 0x38, 0x39] = 0xF4#8 ∧ crc8 [] = 0x00#8 ∧ crc8 [0x00] = 0x00#8 ∧
    crc8 [0x01] = 0x07#8 ∧ crc8 [0x80] = 0x89#8 ∧ crc8 [0x06] = 0x12#8 ∧ crc8 [0x85] = 0x92#8 ∧ crc8 [0xFF] = 0xF3#8 ∧
    crc8 [0x11, 0x22, 0x33] = 0xD4#8 ∧ crc8 [0x11, 0x22, 0x32] = 0xD3#8 ∧ crc8 [0x11, 0x22, 0x33, 0xD4] = 0x00#8 ∧
    crc8 [0x01, 0x06] = 0x07#8 ∧ crc8 [0xD8] = 0x06#8 ∧ crc8 [0x42] = 0xC9#8 := by decide +kernel

/-! ### One step of each instruction -/

/-- B-3: BEGIN 3 in `(PAY,2)` with RX = `33 D4`; scratch byte 4 is above n and stays (R34). -/
theorem test_begin_reconfigures :
    nextOf (exec (.begin 3#8) { idle 3#8 with
      rxState := .pay, rxCursor := 2#9, scr := [(0, 0x11#8), (3, 0x44#8), (4, 0x55#8)], rx := [0x33#8, 0xD4#8] }) =
      some { idle 3#8 with scr := [(4, 0x55#8)], rx := [0x33#8, 0xD4#8], hostLog := [.done] } := by decide

/-- B-5, C-3. -/
theorem test_begin_zero :
    nextOf (exec (.begin 0#8) State.reset) = some { State.reset with faulted := true, faultReason := .badLen } := by decide

/-- C-4. -/
theorem test_send_accepted :
    nextOf (exec .send (idle 3#8)) = some { idle 3#8 with busy := true, curCmd := .send, txK := 0#9, txCrc := 0#8 } := by
  decide

/-- C-11. -/
theorem test_send_unconfigured :
    (nextOf (exec .send State.reset)).map (fun t => (t.faulted, t.faultReason, t.busy, t.tx)) =
      some (true, .unconfigured, false, []) := by decide

/-- C-5. -/
theorem test_poll_accepted :
    nextOf (exec .poll (idle 3#8)) = some { idle 3#8 with busy := true, curCmd := .poll } := by decide

/-- C-10. -/
theorem test_poll_unconfigured :
    (nextOf (exec .poll { State.reset with rx := [0x06#8] })).map (fun t => (t.faulted, t.faultReason, t.busy, t.rx)) =
      some (true, .unconfigured, false, [0x06#8]) := by decide

/-- R-2. -/
theorem test_rx_empty :
    nextOf (exec .rxEmpty (polling 2#8 .pay 1#9 [(0, 0x01#8)] [])) =
      some { polling 2#8 .pay 1#9 [(0, 0x01#8)] [] with busy := false, hostLog := [.ok false] } := by decide

/-- R-4, its first micro-step. -/
theorem test_rx_h1_sync :
    nextOf (exec .rxH1Sync (polling 2#8 .h1 0#9 [] [0x06#8])) = some (polling 2#8 .h2 0#9 [] []) := by decide

/-- R-3, its third micro-step. -/
theorem test_rx_h1_skip :
    nextOf (exec (.rxH1Skip 0x85#8) (polling 2#8 .h1 0#9 [] [0x85#8])) = some (polling 2#8 .h1 0#9 [] []) := by decide

/-- R-5a, its first micro-step. -/
theorem test_rx_h2_ok :
    nextOf (exec .rxH2Ok (polling 2#8 .h2 0#9 [] [0x85#8])) = some (polling 2#8 .len 0#9 [] []) := by decide

/-- R-5b: the quirk. -/
theorem test_rx_h2_bad :
    nextOf (exec (.rxH2Bad 0x06#8) (polling 2#8 .h2 0#9 [] [0x06#8, 0x85#8, 0x02#8])) =
      some { polling 2#8 .h1 0#9 [] [0x85#8, 0x02#8] with busy := false, hostLog := [.ok false] } := by decide

/-- R-6d, its first micro-step. -/
theorem test_rx_len_ok :
    nextOf (exec (.rxLenOk 0x06#8) (polling 6#8 .len 0#9 [] [0x06#8])) = some (polling 6#8 .pay 0#9 [] []) := by decide

/-- R-6b. -/
theorem test_rx_len_bad :
    nextOf (exec (.rxLenBad 0x03#8) (polling 2#8 .len 0#9 [] [0x03#8, 0x01#8])) =
      some { polling 2#8 .h1 0#9 [] [0x01#8] with busy := false, hostLog := [.ok false] } := by decide

/-- R-7, its second micro-step. -/
theorem test_rx_pay_store :
    nextOf (exec (.rxPayStore 0x85#8) (polling 2#8 .pay 1#9 [(0, 0x06#8)] [0x85#8])) =
      some (polling 2#8 .pay 2#9 [(0, 0x06#8), (1, 0x85#8)] []) := by decide

/-- R-8c and R-8b. -/
theorem test_rx_pay_last :
    nextOf (exec (.rxPayLast 0x1B#8) (polling 2#8 .pay 2#9 [(0, 0x01#8), (1, 0x02#8)] [0x1B#8, 0x06#8, 0x85#8])) =
      some { polling 2#8 .h1 0#9 [(0, 0x01#8), (1, 0x02#8), (2, 0x1B#8)] [0x06#8, 0x85#8] with
        busy := false, recMem := [(0, 0x01#8), (1, 0x02#8)], hostLog := [.ok true] } ∧
    nextOf (exec (.rxPayLast 0x1C#8) (polling 2#8 .pay 2#9 [(0, 0x01#8), (1, 0x02#8)] [0x1C#8])) =
      some { polling 2#8 .h1 0#9 [(0, 0x01#8), (1, 0x02#8), (2, 0x1C#8)] [] with
        busy := false, hostLog := [.ok false] } := by decide +kernel

/-- R-10: with N = 255 the cursor reaches 256 inside the micro-step (R26). -/
theorem test_rx_pay_last_of_255 :
    (storeCrc 0x00#8 (polling 255#8 .pay 255#9 [] [0x00#8])).rxCursor = 256#9 ∧
    (storeCrc 0x01#8 (polling 255#8 .pay 255#9 [] [0x01#8])).scr = [(255, 0x01#8)] := by decide

/-- S-10, byte by byte; and the hold of R91. -/
theorem test_tx_hdr1 :
    nextOf (exec .txHdr1 (sending 0#9 0#8 true)) = some { sending 1#9 0#8 true with tx := [0x06#8] } ∧
    nextOf (exec .txHdr1 (sending 0#9 0#8 false)) = some (sending 0#9 0#8 false) := by decide

theorem test_tx_hdr2 :
    nextOf (exec .txHdr2 (sending 1#9 0#8 true)) = some { sending 2#9 0#8 true with tx := [0x85#8] } := by decide

theorem test_tx_len :
    nextOf (exec .txLen (sending 2#9 0#8 true)) = some { sending 3#9 0#8 true with tx := [0x03#8] } := by decide

/-- K-9 at its last byte: crc8(11 22) updated with 33 is D4. -/
theorem test_tx_pay :
    nextOf (exec (.txPay 2#8) (sending 5#9 (crc8 [0x11, 0x22]) true)) =
      some { sending 6#9 0xD4#8 true with tx := [0x33#8] } := by decide +kernel

theorem test_tx_crc :
    nextOf (exec .txCrc (sending 6#9 0xD4#8 true)) =
      some { sending 7#9 0xD4#8 true with tx := [0xD4#8], busy := false, hostLog := [.done] } := by decide

/-! ### CRC8 as a parameter (R143): with another function, the running value is that function's value -/

theorem test_other_checksum (n : Nat) :
    (nextOf (exec .send { idle 3#8 with crc8Fn := .other n })).map (·.txCrc) = some (Config.otherChecksum n []) ∧
    (Checksum.other n).update [0x11#8] 0#8 0x22#8 = Config.otherChecksum n [0x11#8, 0x22#8] ∧
    ∀ b, checksumOk (.other n) [0x11#8] b = (Config.otherChecksum n [0x11#8] == b) := ⟨rfl, rfl, fun _ => rfl⟩

/-! ### Steps of the other agents -/

/-- C-12: the encoding check precedes the configuration check (R157). -/
theorem test_reserved_word_before_configuration :
    (nextOf (step { State.reset with agenda := [.issue 0x301#10] })).map (fun t => (t.faulted, t.faultReason)) =
      some (true, .badCmd) := by decide

/-- R154: a write stores nothing, and the command is abandoned. -/
theorem test_hazard :
    (nextOf (step { sending 2#9 0#8 true with agenda := [.hostWrite 0 0x77#8] })).map
        (fun t => (t.recMem, t.faulted, t.faultReason, t.busy)) = some (record3, true, .hazard, false) := by decide

/-- C-13. -/
theorem test_faulted_accepts_nothing :
    nextOf (step { idle 3#8 with faulted := true, agenda := [.issue 0x103#10] }) =
      some { idle 3#8 with faulted := true } := by decide

/-- R6, R40: no record has an index 255. -/
theorem test_absent_index :
    (match step { idle 3#8 with agenda := [.hostRead 255] } with | .fault r => some r | _ => none) =
      some .recIndexAbsent := by decide

/-- R110: an arrival between two micro-steps falls before the next one. -/
theorem test_arrival_during_poll :
    nextOf (step { polling 2#8 .h1 0#9 [] [] with agenda := [.rxAppend [0x06#8], .block] }) =
      some { polling 2#8 .h1 0#9 [] [0x06#8] with agenda := [.block] } := by decide

/-- R182: the cycle begins again when the agenda has run out. -/
theorem test_cycle :
    nextOf (step { polling 2#8 .h1 0#9 [] [] with cycle := [.rxAppend [0x00#8], .block] }) =
      some { polling 2#8 .h1 0#9 [] [0x00#8] with agenda := [.block], cycle := [.rxAppend [0x00#8], .block] } := by decide

/-! ### Witnesses: the hypotheses of each obligation, met by a concrete state -/

/-- With no agenda and no cycle, no agent but the Block acts. -/
theorem undisturbed_of_empty {s : State} (ha : s.agenda = []) (hc : s.cycle = []) : Undisturbed s := by
  intro a h
  simp [State.schedule, ha, hc] at h

theorem witness_coherent_idle : Coherent { idle 3#8 with recMem := record3 } := coherent_of_check (by decide +kernel)

theorem witness_DecodeInvertsEncode :
    WellFormed ⟨255#8, 255#9⟩ (.rxPayLast 0x85#8) = true ∧ WellFormed ⟨255#8, 0#9⟩ (.txPay 254#8) = true ∧
    WellFormed ⟨1#8, 0#9⟩ .txCrc = true ∧ WellFormed ⟨1#8, 0#9⟩ (.begin 255#8) = true := by decide

theorem witness_EncodeInvertsDecode :
    decode ⟨255#8, 0#9⟩ (.txk 257#9) = .instr (.txPay 254#8) ∧ decode ⟨255#8, 0#9⟩ (.cmd 0x1FF#10) = .instr (.begin 255#8) ∧
    decode ⟨255#8, 255#9⟩ (.rxd 0x3FF#10) = .instr (.rxPayLast 255#8) := by decide

theorem witness_WrittenWordsDecode : ∃ c : RowCtx, c = { cfgLen := 0x03#8, cursor := 1#9 } := ⟨_, rfl⟩

theorem witness_CommandWordsMatchPatterns :
    0x1FF#10 &&& 0x300#10 = 0x100#10 ∧ 0x200#10 &&& 0x3FF#10 = 0x200#10 ∧ 0x300#10 &&& 0x3FF#10 = 0x300#10 := by decide

theorem witness_ReceiveTableTotal : (RowCtx.mk 255#8 255#9).cursor.toNat ≤ (RowCtx.mk 255#8 255#9).cfgLen.toNat := by
  decide

theorem witness_StepRunsDecodedCommand : ∃ (s : State) (w : Word10) (rest : List AgentMove) (i : Instr),
    Accepting s ∧ s.schedule = .issue w :: rest ∧ decode s.rowCtx (.cmd w) = .instr i :=
  ⟨{ idle 3#8 with agenda := [.issue 0x300#10] }, 0x300#10, [], .poll, ⟨rfl, rfl⟩, rfl, by decide⟩

theorem witness_StepRunsDecodedRow :
    (sending 6#9 0xD4#8 true).fetched = some (.txk 6#9) ∧
    decode (sending 6#9 0xD4#8 true).rowCtx (.txk 6#9) = .instr .txCrc ∧ Undisturbed (sending 6#9 0xD4#8 true) :=
  ⟨by decide, by decide, undisturbed_of_empty rfl rfl⟩

theorem witness_StepRunsDecodedRow_waiting : ∃ s : State,
    s.fetched = some (.txk 6#9) ∧ decode s.rowCtx (.txk 6#9) = .instr .txCrc ∧ s.schedule = [.await] ∧ Undisturbed s :=
  ⟨{ sending 6#9 0xD4#8 true with agenda := [.await] }, by decide, by decide, rfl, fun a h => by cases h; rfl⟩

theorem witness_StepRunsDecodedRow_block : ∃ s : State,
    s.fetched = some (.txk 6#9) ∧ decode s.rowCtx (.txk 6#9) = .instr .txCrc ∧ s.schedule = [.block] :=
  ⟨{ sending 6#9 0xD4#8 true with agenda := [.block] }, by decide, by decide, rfl⟩

theorem witness_PlacedTableWordRuns :
    decodeTableWord 16 0x200 = some .send ∧ decodeTableWord 16 0x006 = some .rxH1Sync ∧
    decodeTableWord 16 0x002 = some .txLen := by decide

theorem witness_BeginConfigures : ∃ (s : State) (n : Byte), Accepting s ∧ s.scr.wf = true ∧ n ≠ 0#8 :=
  ⟨State.reset, 255#8, ⟨rfl, rfl⟩, rfl, by decide⟩

theorem witness_BeginZeroFaults : Accepting State.reset := ⟨rfl, rfl⟩

theorem witness_SendStarts : Accepting (idle 1#8) ∧ (idle 1#8).cfgValid = true ∧ (idle 1#8).crc8Fn = .smbus :=
  ⟨⟨rfl, rfl⟩, rfl, rfl⟩

theorem witness_PollStarts : Accepting (idle 255#8) ∧ (idle 255#8).cfgValid = true := ⟨⟨rfl, rfl⟩, rfl⟩

theorem witness_UnconfiguredCommandsFault : Accepting State.reset ∧ State.reset.cfgValid = false := ⟨⟨rfl, rfl⟩, rfl⟩

theorem witness_ReservedWordsFault (w : Word10) : w = 0x0FF#10 ∨ w = 0x201#10 ∨ w = 0x301#10 →
    ∃ (s : State) (rest : List AgentMove), Accepting s ∧ s.schedule = .issue w :: rest ∧
      (hiField w = 0b00#2 ∨ hiField w = 0b10#2 ∧ loField w ≠ 0x00#8 ∨ hiField w = 0b11#2 ∧ loField w ≠ 0x00#8) := by
  intro h
  refine ⟨{ State.reset with agenda := [.issue w] }, [], ⟨rfl, rfl⟩, rfl, ?_⟩
  rcases h with rfl | rfl | rfl <;> decide

theorem witness_CommandsTurnedAway :
    ((idle 3#8).busy = false ∧ { idle 3#8 with faulted := true }.faulted = true) ∧
    (sending 0#9 0#8 true).busy = true := by decide

theorem witness_UnselectedRowsRefused : ∃ (s : State) (i : Instr),
    i ≠ .send ∧ i ≠ .poll ∧ (∀ n, i ≠ .begin n) ∧ s.selects i = false :=
  ⟨polling 2#8 .pay 2#9 [] [0x06#8], .rxPayStore 0x06#8, by decide, by decide, (fun _ h => nomatch h), by decide⟩

theorem witness_EmptyStreamRespondsFalse :
    Polling (polling 2#8 .pay 2#9 [] []) ∧ (polling 2#8 .pay 2#9 [] []).rx = [] := ⟨⟨rfl, rfl⟩, rfl⟩

theorem witness_Header1Found : ∃ (s : State) (rest : List Byte),
    Polling s ∧ s.rxState = .h1 ∧ s.rx = 0x06#8 :: rest ∧ Coherent s :=
  ⟨polling 2#8 .h1 0#9 [] [0x06#8, 0x85#8], _, ⟨rfl, rfl⟩, rfl, rfl, coherent_of_check (by decide +kernel)⟩

theorem witness_JunkSkipped : ∃ (s : State) (b : Byte) (rest : List Byte),
    Polling s ∧ s.rxState = .h1 ∧ s.rx = b :: rest ∧ b ≠ 0x06#8 :=
  ⟨polling 2#8 .h1 0#9 [] [0x85#8], _, _, ⟨rfl, rfl⟩, rfl, rfl, by decide⟩

theorem witness_Header2Found : ∃ (s : State) (rest : List Byte),
    Polling s ∧ s.rxState = .h2 ∧ s.rx = 0x85#8 :: rest ∧ Coherent s :=
  ⟨polling 2#8 .h2 0#9 [] [0x85#8], _, ⟨rfl, rfl⟩, rfl, rfl, coherent_of_check (by decide +kernel)⟩

theorem witness_BadHeader2Resynchronises : ∃ (s : State) (b : Byte) (rest : List Byte),
    Polling s ∧ s.rxState = .h2 ∧ s.rx = b :: rest ∧ b ≠ 0x85#8 :=
  ⟨polling 2#8 .h2 0#9 [] [0x06#8, 0x85#8, 0x02#8], _, _, ⟨rfl, rfl⟩, rfl, rfl, by decide⟩

theorem witness_LengthAccepted : ∃ (s : State) (rest : List Byte),
    Polling s ∧ s.rxState = .len ∧ s.rx = s.cfgLen :: rest ∧ Coherent s :=
  ⟨polling 6#8 .len 0#9 [] [0x06#8], _, ⟨rfl, rfl⟩, rfl, rfl, coherent_of_check (by decide +kernel)⟩

theorem witness_BadLengthResynchronises : ∃ (s : State) (b : Byte) (rest : List Byte),
    Polling s ∧ s.rxState = .len ∧ s.rx = b :: rest ∧ b ≠ s.cfgLen :=
  ⟨polling 2#8 .len 0#9 [] [0x00#8], _, _, ⟨rfl, rfl⟩, rfl, rfl, by decide⟩

theorem witness_PayloadByteStored : ∃ (s : State) (b : Byte) (rest : List Byte),
    Polling s ∧ s.rxState = .pay ∧ s.rx = b :: rest ∧ s.rxCursor.toNat < s.recLen ∧ s.scr.wf = true :=
  ⟨polling 255#8 .pay 254#9 [(0, 0x06#8)] [0x85#8], _, _, ⟨rfl, rfl⟩, rfl, rfl, by decide, rfl⟩

/-- A valid and an invalid checksum, at the largest record length. -/
theorem witness_FrameCompleted (b : Byte) : b = 0x00#8 ∨ b = 0x01#8 → ∃ (s : State) (rest : List Byte),
    Polling s ∧ s.rxState = .pay ∧ s.rx = b :: rest ∧ s.rxCursor.toNat = s.recLen ∧ s.scr.wf = true ∧
      s.recMem.wf = true ∧ s.recLen = 255 :=
  fun _ => ⟨polling 255#8 .pay 255#9 [] [b], _, ⟨rfl, rfl⟩, rfl, rfl, rfl, rfl, rfl, rfl⟩

theorem witness_Header1Sent (ready : Bool) :
    Sending (sending 0#9 0#8 ready) ∧ (sending 0#9 0#8 ready).txK = 0#9 ∧ (sending 0#9 0#8 ready).txReady = ready :=
  ⟨⟨rfl, rfl⟩, rfl, rfl⟩

theorem witness_Header2Sent (ready : Bool) :
    Sending (sending 1#9 0#8 ready) ∧ (sending 1#9 0#8 ready).txK = 1#9 ∧ (sending 1#9 0#8 ready).txReady = ready :=
  ⟨⟨rfl, rfl⟩, rfl, rfl⟩

theorem witness_LengthSent (ready : Bool) :
    Sending (sending 2#9 0#8 ready) ∧ (sending 2#9 0#8 ready).txK = 2#9 ∧ (sending 2#9 0#8 ready).txReady = ready :=
  ⟨⟨rfl, rfl⟩, rfl, rfl⟩

theorem witness_PayloadByteSent (ready : Bool) : ∃ (s : State) (i : Byte),
    Sending s ∧ s.txK.toNat = i.toNat + 3 ∧ i.toNat < s.recLen ∧ s.txReady = ready ∧ s.crc8Fn = .smbus :=
  ⟨{ sending 257#9 0#8 ready with cfgLen := 255#8 }, 254#8, ⟨rfl, rfl⟩, rfl, by show 254 < 255; decide, rfl, rfl⟩

theorem witness_PayloadByteSent_coherent : ∃ (s : State) (i : Byte),
    Sending s ∧ s.txK.toNat = i.toNat + 3 ∧ i.toNat < s.recLen ∧ s.txReady = true ∧ Coherent s :=
  ⟨sending 5#9 (crc8 [0x11, 0x22]) true, 2#8, ⟨rfl, rfl⟩, rfl, by decide, rfl, coherent_of_check (by decide +kernel)⟩

theorem witness_ChecksumSent (ready : Bool) : ∃ s : State,
    Sending s ∧ s.txK.toNat = s.recLen + 3 ∧ s.txReady = ready ∧ Coherent s := by
  refine ⟨sending 6#9 0xD4#8 ready, ⟨rfl, rfl⟩, rfl, rfl, coherent_of_check ?_⟩
  cases ready <;> decide +kernel

theorem witness_RecAccessWhileBusyFaults (a : AgentMove) : a = .hostRead 254 ∨ a = .hostWrite 254 0x77#8 →
    ∃ (s : State) (rest : List AgentMove), s.busy = true ∧ s.schedule = a :: rest :=
  fun _ => ⟨{ sending 2#9 0#8 true with agenda := [a] }, [], rfl, rfl⟩

theorem witness_IdleRecAccess (a : AgentMove) : a = .hostRead 254 ∨ a = .hostWrite 254 0x77#8 →
    ∃ (s : State) (rest : List AgentMove), s.busy = false ∧ s.recMem.wf = true ∧ s.schedule = a :: rest :=
  fun _ => ⟨{ idle 3#8 with recMem := record3, agenda := [a] }, [], rfl, rfl, rfl⟩

theorem witness_TransportActions (a : AgentMove) : a = .rxAppend [0x06#8] ∨ a = .txTake ∨ a = .txReady false →
    ∃ (s : State) (rest : List AgentMove) (b : Byte) (bs : List Byte), s.schedule = a :: rest ∧ s.tx = b :: bs :=
  fun _ => ⟨{ idle 3#8 with tx := [0x06#8], agenda := [a] }, [], _, _, rfl, rfl⟩

theorem witness_FaultIsSticky : ∃ s t : State, Coherent s ∧ s.faulted = true ∧ step s = .next t ∧
    (∀ rest, s.schedule ≠ .hwReset :: rest) ∧ (∀ rest, s.schedule ≠ .hwResetInCopy :: rest) :=
  ⟨{ idle 3#8 with faulted := true, agenda := [.issue 0x103#10] }, { idle 3#8 with faulted := true },
    coherent_of_check (by decide +kernel), rfl, rfl, (fun _ h => nomatch h), (fun _ h => nomatch h)⟩

theorem witness_ResetValues : { sending 2#9 0#8 true with agenda := [.hwReset] }.schedule = [.hwReset] := rfl

/-- A copy is there to be cut: R-8a. -/
theorem witness_ResetInsideCopyMixesRecord : ∃ s t : State, ∃ rest : List AgentMove,
    s.recMem.wf = true ∧ s.schedule = .hwResetInCopy :: rest ∧ step s = .next t ∧
      Polling s ∧ s.rxState = .pay ∧ s.rx = [0x1B#8] :=
  ⟨{ polling 2#8 .pay 2#9 [(0, 0x01#8), (1, 0x02#8)] [0x1B#8] with agenda := [.hwResetInCopy] }, _, [], rfl, rfl, rfl,
    ⟨rfl, rfl⟩, rfl, rfl⟩

theorem witness_StepKeepsInvariant : ∃ s t : State, Coherent s ∧ step s = .next t :=
  ⟨sending 5#9 (crc8 [0x11, 0x22]) true, _, coherent_of_check (by decide +kernel), rfl⟩

theorem witness_CursorZeroOutsidePay : ∃ (k : Nat) (s t : State), Coherent s ∧ runSteps k s = .next t ∧ t.rxState ≠ .pay :=
  ⟨1, polling 2#8 .pay 2#9 [(0, 0x01#8), (1, 0x02#8)] [0x1B#8], _, coherent_of_check (by decide +kernel), rfl, by decide⟩

theorem witness_StepAlwaysAnswers : ∃ s : State, Coherent s ∧
    (∀ i rest, s.schedule = .hostRead i :: rest → i < 255) ∧
    (∀ i v rest, s.schedule = .hostWrite i v :: rest → i < 255) :=
  ⟨{ idle 3#8 with agenda := [.hostRead 254] }, coherent_of_check (by decide +kernel),
    (fun i rest h => by cases h; decide), (fun _ _ _ h => nomatch h)⟩

theorem witness_OnlyBeginConfigures : ∃ s t : State, step s = .next t ∧ (t.cfgLen ≠ s.cfgLen ∨ t.cfgValid ≠ s.cfgValid) :=
  ⟨{ State.reset with agenda := [.issue 0x103#10] }, _, rfl, by decide⟩

theorem witness_RecWrittenOnlyByValidFrame : ∃ s t : State, Coherent s ∧ step s = .next t ∧ t.recMem ≠ s.recMem :=
  ⟨polling 2#8 .pay 2#9 [(0, 0x01#8), (1, 0x02#8)] [0x1B#8], _, coherent_of_check (by decide +kernel), rfl, by decide +kernel⟩

theorem witness_SendLeavesReceiver : ∃ s t : State, exec (.txPay 2#8) s = .next t :=
  ⟨sending 5#9 (crc8 [0x11, 0x22]) true, _, rfl⟩

theorem witness_ResponseEndsPoll (b : Byte) (ok : Bool) : (b = 0x1B#8 ∧ ok = true) ∨ (b = 0x1C#8 ∧ ok = false) →
    ∃ s t : State, Coherent s ∧ step s = .next t ∧ t.hostLog = s.hostLog ++ [.ok ok] := by
  rintro (⟨rfl, rfl⟩ | ⟨rfl, rfl⟩)
  · exact ⟨polling 2#8 .pay 2#9 [(0, 0x01#8), (1, 0x02#8)] [0x1B#8], _, coherent_of_check (by decide +kernel), rfl, by decide +kernel⟩
  · exact ⟨polling 2#8 .pay 2#9 [(0, 0x01#8), (1, 0x02#8)] [0x1C#8], _, coherent_of_check (by decide +kernel), rfl, by decide +kernel⟩

/-- R-8a: the micro-step responds. R-4: it continues. -/
theorem witness_ByteStepIsSummary : ∃ (s t : State) (b : Byte) (rest : List Byte),
    Coherent s ∧ Polling s ∧ s.rx = b :: rest ∧ blockStep s = .next t ∧
      rxOutcome s.crc8Fn s.recLen s.receiver b = some true :=
  ⟨polling 2#8 .pay 2#9 [(0, 0x01#8), (1, 0x02#8)] [0x1B#8], _, _, _, coherent_of_check (by decide +kernel), ⟨rfl, rfl⟩, rfl,
    rfl, by decide +kernel⟩

theorem witness_ByteStepIsSummary_continues : ∃ (s t : State) (b : Byte) (rest : List Byte),
    Coherent s ∧ Polling s ∧ s.rx = b :: rest ∧ blockStep s = .next t ∧
      rxOutcome s.crc8Fn s.recLen s.receiver b = none :=
  ⟨polling 2#8 .h1 0#9 [] [0x06#8], _, _, _, coherent_of_check (by decide +kernel), ⟨rfl, rfl⟩, rfl, rfl, by decide⟩

theorem witness_ParseDecidedByBytesAlone : ∃ (k : Nat) (s t : State),
    Coherent s ∧ (∀ a ∈ s.agenda ++ s.cycle, a.leavesReceiver = true) ∧ runSteps k s = .next t ∧ k = 4 :=
  ⟨4, { idle 2#8 with
      rx := [0x06#8], agenda := [.issue 0x300#10, .rxAppend [0x85#8], .block], cycle := [.rxAppend [0x02#8], .block] }, _,
    coherent_of_check (by decide +kernel), by decide, rfl, rfl⟩

/-- R-7, resumed after its first byte. -/
theorem witness_ScratchHoldsPayloadPrefix : ∃ (s : State) (bs rest : List Byte),
    Coherent s ∧ Polling s ∧ Undisturbed s ∧ s.rxState = .pay ∧ s.rx = bs ++ rest ∧
      s.rxCursor.toNat + bs.length ≤ s.recLen ∧ bs = [0x85#8] ∧ s.rxCursor = 1#9 :=
  ⟨polling 2#8 .pay 1#9 [(0, 0x06#8)] [0x85#8], [0x85#8], [], coherent_of_check (by decide +kernel), ⟨rfl, rfl⟩,
    undisturbed_of_empty rfl rfl, rfl, rfl, by decide, rfl, rfl⟩

theorem witness_SendEmitsFrame : ∃ (s : State) (rest : List AgentMove),
    Accepting s ∧ s.cfgValid = true ∧ s.txReady = true ∧ s.schedule = .issue 0x200#10 :: rest ∧
      Undisturbed (s.withAgenda rest) :=
  ⟨{ idle 255#8 with agenda := [.issue 0x200#10, .await] }, [.await], ⟨rfl, rfl⟩, rfl, rfl, rfl, by
    intro a h; cases h; rfl⟩

/-- A push, a hold, and a removal by the sink. -/
theorem witness_SendStepsFollowFrame (k : Index9) (ready : Bool) (ms : List AgentMove) :
    (k = 6#9 ∧ ready = true ∧ ms = []) ∨ (k = 6#9 ∧ ready = false ∧ ms = []) ∨
      (k = 6#9 ∧ ready = false ∧ ms = [.txTake]) →
    ∃ s t : State, Coherent s ∧ Sending s ∧ step s = .next t ∧ s.txK = k ∧ s.txReady = ready ∧ s.schedule = ms := by
  rintro (⟨rfl, rfl, rfl⟩ | ⟨rfl, rfl, rfl⟩ | ⟨rfl, rfl, rfl⟩)
  · exact ⟨sending 6#9 0xD4#8 true, _, coherent_of_check (by decide +kernel), ⟨rfl, rfl⟩, rfl, rfl, rfl, rfl⟩
  · exact ⟨sending 6#9 0xD4#8 false, _, coherent_of_check (by decide +kernel), ⟨rfl, rfl⟩, rfl, rfl, rfl, rfl⟩
  · exact ⟨{ sending 6#9 0xD4#8 false with tx := [0x33#8], agenda := [.txTake] }, _, coherent_of_check (by decide +kernel),
      ⟨rfl, rfl⟩, rfl, rfl, rfl, rfl⟩

/-- P5's second POLL: junk `01 02`, the frame of `12 34`, and more bytes. -/
theorem witness_ValidFrameReceived : ∃ (s : State) (junk payload more : List Byte) (rest : List AgentMove),
    Coherent s ∧ Accepting s ∧ s.cfgValid = true ∧ s.rxState = .h1 ∧ 0x06#8 ∉ junk ∧ payload.length = s.recLen ∧
    s.rx = junk ++ frameOf s.crc8Fn s.cfgLen payload ++ more ∧ s.schedule = .issue 0x300#10 :: rest ∧
    Undisturbed (s.withAgenda rest) :=
  ⟨{ idle 2#8 with
      rx := [0x01#8, 0x02#8, 0x06#8, 0x85#8, 0x02#8, 0x12#8, 0x34#8, 0xF1#8, 0x06#8], agenda := [.issue 0x300#10] },
    [0x01#8, 0x02#8], [0x12#8, 0x34#8], [0x06#8], [], coherent_of_check (by decide +kernel), ⟨rfl, rfl⟩, rfl, rfl,
    by decide, by decide, by decide +kernel, rfl, undisturbed_of_empty rfl rfl⟩

theorem witness_LinkRoundTrip : ∃ (a b : State) (ra rb : List AgentMove),
    Coherent a ∧ Coherent b ∧ Accepting a ∧ Accepting b ∧ a.cfgValid = true ∧ b.cfgValid = true ∧
    a.cfgLen = b.cfgLen ∧ a.crc8Fn = b.crc8Fn ∧ a.txReady = true ∧ b.rxState = .h1 ∧ a.tx = [] ∧
    a.schedule = .issue 0x200#10 :: ra ∧ b.schedule = .issue 0x300#10 :: rb ∧
    Undisturbed (a.withAgenda ra) ∧ Undisturbed (b.withAgenda rb) :=
  ⟨{ idle 3#8 with recMem := record3, agenda := [.issue 0x200#10] }, { idle 3#8 with agenda := [.issue 0x300#10] }, [], [],
    coherent_of_check (by decide +kernel), coherent_of_check (by decide +kernel), ⟨rfl, rfl⟩, ⟨rfl, rfl⟩, rfl, rfl, rfl,
    rfl, rfl, rfl, rfl, rfl, rfl, undisturbed_of_empty rfl rfl, undisturbed_of_empty rfl rfl⟩

/-- K-9 with K-10's byte: `11 22 32` under the checksum of `11 22 33`. -/
theorem witness_ChangedPayloadByteRejected : ∃ (s : State) (before after : List Byte) (b c : Byte) (rest : List AgentMove),
    Coherent s ∧ Accepting s ∧ s.cfgValid = true ∧ s.rxState = .h1 ∧ s.crc8Fn = .smbus ∧ b ≠ c ∧
    before.length + after.length + 1 = s.recLen ∧
    s.rx = [0x06#8, 0x85#8, s.cfgLen] ++ (before ++ c :: after) ++ [crc8 (before ++ b :: after)] ∧
    s.schedule = .issue 0x300#10 :: rest ∧ Undisturbed (s.withAgenda rest) :=
  ⟨{ idle 3#8 with
      rx := [0x06#8, 0x85#8, 0x03#8, 0x11#8, 0x22#8, 0x32#8, 0xD4#8], agenda := [.issue 0x300#10] },
    [0x11#8, 0x22#8], [], 0x33#8, 0x32#8, [], coherent_of_check (by decide +kernel), ⟨rfl, rfl⟩, rfl, rfl, rfl, by decide,
    by decide, by decide +kernel, rfl, undisturbed_of_empty rfl rfl⟩

theorem witness_PollWorkBounded : ∃ s : State, Coherent s ∧ Polling s ∧ Undisturbed s ∧ s.rxState ≠ .h1 :=
  ⟨polling 2#8 .h2 0#9 [] [0x85#8, 0x02#8], coherent_of_check (by decide +kernel), ⟨rfl, rfl⟩, undisturbed_of_empty rfl rfl,
    by decide⟩

theorem witness_PollNeedNotEnd : ∃ (s : State) (b : Byte), Polling s ∧ s.rxState = .h1 ∧ s.rx = [] ∧ b ≠ 0x06#8 ∧
    s.agenda = [] ∧ s.cycle = [.rxAppend [b], .block] :=
  ⟨{ polling 2#8 .h1 0#9 [] [] with cycle := [.rxAppend [0x85#8], .block] }, 0x85#8, ⟨rfl, rfl⟩, rfl, rfl, by decide, rfl,
    rfl⟩

theorem witness_IdlePollsChangeNothing : ∃ (k : Nat) (s t : State),
    s.cfgValid = true ∧ s.rx = [] ∧ (s.busy = false ∨ Polling s) ∧
    (∀ a ∈ s.agenda ++ s.cycle, a = .issue 0x300#10 ∨ a = .await ∨ a = .block) ∧ runSteps k s = .next t ∧ k = 4 ∧
    s.rxState = .pay :=
  ⟨4, { idle 2#8 with rxState := .pay, rxCursor := 1#9, cycle := [.issue 0x300#10, .await] }, _, rfl, rfl,
    .inl rfl, by decide, rfl, rfl, rfl⟩

theorem witness_SendHoldsWithoutSink : ∃ s : State,
    Sending s ∧ s.txReady = false ∧ s.txK.toNat < s.frameLen ∧ Undisturbed s :=
  ⟨sending 6#9 0xD4#8 false, ⟨rfl, rfl⟩, rfl, by decide, undisturbed_of_empty rfl rfl⟩

theorem witness_ChecksumConsequences : (0x33#8 : Byte) ≠ 0x32#8 := by decide

end Sys2Proof.Tests
end

section
/-! SUPPORT. Proofs of the statements about the state: the invariant and reset, configuration, responses, the scratch store,
and the transmit stream. -/

namespace Sys2Proof.Machine

/-! ### What keeps the invariant: one lemma per kind of change -/

/-- The invariant says nothing of the streams, the sink's readiness, the Host's observations and the schedule. -/
theorem Coherent.withAgents {s : State} (h : Coherent s) {rx tx : List Byte} {r : Bool} {log : List HostObs}
    {ms : List AgentMove} :
    Coherent { s with rx := rx, tx := tx, txReady := r, hostLog := log, agenda := ms } :=
  { h with }

/-- Once no command is in flight, the fault bits and what R29 and R30 keep for a command in flight are free. -/
theorem Coherent.idle {s : State} (h : Coherent s) {cmd : CmdKind} {k : Index9} {c : Byte} {f : Bool} {r : FaultReason} :
    Coherent { s with busy := false, curCmd := cmd, txK := k, txCrc := c, faulted := f, faultReason := r } :=
  { h with
    busyConfigured := nofun
    busyUnfaulted := nofun
    busyCommand := nofun
    sendIndex := fun hs => nomatch hs.1
    sendCrc := fun hs => nomatch hs.1 }

theorem Coherent.respond {s : State} (h : Coherent s) (v : HostObs) : Coherent (respond v s) :=
  h.idle.withAgents

theorem Coherent.raiseFault {s : State} (h : Coherent s) (r : FaultReason) : Coherent (raiseFault r s) :=
  h.idle

/-- A configured Block's receive registers may become any that satisfy R25, R26 and R27. -/
theorem Coherent.receive {s : State} (h : Coherent s) (hcfg : s.cfgValid = true) {st : RxState} {c : Index9} {m : Memory}
    (hz : st ≠ .pay → c = 0#9) (hc : c.toNat ≤ s.recLen) (hw : m.wf = true) (hb : m.below Config.scrCap = true) :
    Coherent { s with rxState := st, rxCursor := c, scr := m } :=
  { h with
    scrWf := hw
    scrBelow := hb
    cursorZero := hz
    cursorBound := hc
    unconfigured := fun hn => by simp_all }

/-- A receive register change with the scratch store as it was and the cursor at 0. -/
theorem Coherent.receiveAt {s : State} (h : Coherent s) (hcfg : s.cfgValid = true) (st : RxState) :
    Coherent { s with rxState := st, rxCursor := 0#9 } :=
  h.receive hcfg (fun _ => rfl) (Nat.zero_le _) h.scrWf h.scrBelow

/-- REC may change while no SEND reads it. -/
theorem Coherent.withRec {s : State} (h : Coherent s) (hs : ¬ Sending s) {m : Memory} (hw : m.wf = true)
    (hb : m.below Config.recCap = true) : Coherent { s with recMem := m } :=
  { h with
    recWf := hw
    recBelow := hb
    sendIndex := fun h' => absurd h' hs
    sendCrc := fun h' => absurd h' hs }

/-- A SEND in flight may move on to any index below N+4, with the checksum of what it has then sent. -/
theorem Coherent.sendAt {s : State} (h : Coherent s) {k : Index9} {c : Byte} (hk : k.toNat < s.frameLen)
    (hc : c = s.crc8Fn.value (s.recMem.readRange 0 (k.toNat - 3))) : Coherent { s with txK := k, txCrc := c } :=
  { h with
    sendIndex := fun _ => hk
    sendCrc := fun _ => hc }

/-- A command other than BEGIN is accepted by a configured Block that is not faulted (R64, R151, R152). For a SEND, `k`
and `c` are at their start (R90). -/
theorem Coherent.accept {s : State} (h : Coherent s) (hf : s.faulted = false) (hcfg : s.cfgValid = true) {cmd : CmdKind}
    (hcmd : cmd ≠ .begin) {k : Index9} {c : Byte} (hk : cmd = .send → k = 0#9 ∧ c = s.crc8Fn.value []) :
    Coherent { accept cmd s with txK := k, txCrc := c } :=
  { h with
    busyConfigured := fun _ => hcfg
    busyUnfaulted := fun _ => hf
    busyCommand := fun _ => hcmd
    sendIndex := fun hs => by
      rw [(hk hs.2).1]
      exact Nat.succ_pos _
    sendCrc := fun hs => by
      obtain ⟨rfl, rfl⟩ := hk hs.2
      rfl }

/-- BEGIN with a legal length (R80). -/
theorem Coherent.begin {s : State} (h : Coherent s) {n : Byte} (hn : n ≠ 0#8) :
    Coherent (Machine.respond .done (beginEffect n s)) :=
  { h with
    scrWf := Memory.wf_writeRange h.scrWf _ _
    scrBelow := Memory.below_writeRange h.scrBelow _ (by
      have := n.isLt
      simp only [List.length_replicate, Config.scrCap]
      omega)
    cursorZero := fun _ => rfl
    cursorBound := Nat.zero_le _
    configured := fun _ => hn
    unconfigured := nofun
    busyConfigured := nofun
    busyUnfaulted := nofun
    busyCommand := nofun
    sendIndex := fun hs => nomatch hs.1
    sendCrc := fun hs => nomatch hs.1 }

/-- A reset needs only REC, the one store it keeps, to be in form (R34, R170). -/
theorem coherent_hwReset {s : State} (hw : s.recMem.wf = true) (hb : s.recMem.below Config.recCap = true) :
    Coherent (hwReset s) where
  recWf := hw
  recBelow := hb
  scrWf := wf_resetScr _
  scrBelow := below_resetScr _
  cursorZero _ := rfl
  cursorBound := Nat.zero_le _
  configured := nofun
  unconfigured _ := ⟨rfl, rfl⟩
  busyConfigured := nofun
  busyUnfaulted := nofun
  busyCommand := nofun
  sendIndex hs := nomatch hs.1
  sendCrc hs := nomatch hs.1

/-- A payload is no longer than the largest record (R6). -/
theorem length_payload_le (s : State) : s.payload.length ≤ Config.recCap := by
  have hlt : s.recLen < 256 := s.cfgLen.isLt
  simp only [State.payload, Memory.length_readRange, Config.recCap]
  omega

theorem Coherent.hwResetInCopy {s : State} (h : Coherent s) : Coherent (hwResetInCopy s) := by
  rcases hwResetInCopy_cases s with e | ⟨b, rest, -, -, -, e⟩ <;> rw [e]
  · exact coherent_hwReset h.recWf h.recBelow
  · exact coherent_hwReset (Memory.wf_partialCopy h.recWf _ _ _)
      (Memory.below_partialCopy h.recBelow _ _ (by simpa using length_payload_le s))

/-! ### Every step keeps the invariant -/

theorem not_sending_of_polling {s : State} (h : Polling s) : ¬ Sending s := fun hs => nomatch h.2.symm.trans hs.2

theorem not_sending_of_idle {s : State} (h : s.busy = false) : ¬ Sending s := fun hs => nomatch h.symm.trans hs.1

/-- Below N the 9-bit cursor moves on without wrapping (R26). -/
theorem cursor_succ_toNat {s : State} (hc : s.rxCursor.toNat < s.recLen) :
    (s.rxCursor + 1#9).toNat = s.rxCursor.toNat + 1 := by
  have hN : s.recLen < 256 := s.cfgLen.isLt
  simp only [BitVec.toNat_add, BitVec.toNat_ofNat]
  omega

theorem PollRow.coherent {s t : State} (h : Coherent s) (hp : Polling s) (row : PollRow s t) : Coherent t := by
  have hcfg := h.busyConfigured hp.1
  have hN : s.recLen < 256 := s.cfgLen.isLt
  have hpop : Coherent s.rxPop := h.withAgents
  have header {st : RxState} (hst : s.rxState ≠ .pay) : Coherent { s.rxPop with rxState := st } :=
    hpop.receive hcfg (fun _ => h.cursorZero hst) h.cursorBound h.scrWf h.scrBelow
  cases row with
  | empty => exact h.respond _
  | h1Sync hst => exact header (by simp [hst])
  | h1Skip => exact hpop
  | h2Ok hst => exact header (by simp [hst])
  | h2Bad => exact (hpop.receiveAt hcfg .h1).respond _
  | lenOk => exact hpop.receiveAt hcfg .pay
  | lenBad => exact (hpop.receiveAt hcfg .h1).respond _
  | payStore hst hrx hc =>
    have hnext := cursor_succ_toNat hc
    exact hpop.receive hcfg (fun hne => absurd hst hne) (by rw [hnext]; exact hc) (Memory.wf_write h.scrWf _ _)
      (Memory.below_write h.scrBelow _ (by simp only [Config.scrCap]; omega))
  | @payLast b =>
    have hstore : Coherent (toH1 (storeCrc b s)) :=
      hpop.receive hcfg (fun _ => rfl) (Nat.zero_le _) (Memory.wf_write h.scrWf _ _)
        (Memory.below_write h.scrBelow _ hN)
    unfold finishFrame
    split
    · refine (hstore.withRec (not_sending_of_polling hp) (Memory.wf_writeRange h.recWf 0 _)
        (Memory.below_writeRange h.recBelow _ ?_)).respond _
      simpa using length_payload_le s
    · exact hstore.respond _

/-- Below N+3 the 9-bit `tx_k` moves on without wrapping (R30). -/
theorem txK_succ_toNat {s : State} (hk : s.txK.toNat < s.recLen + 3) : (s.txK + 1#9).toNat = s.txK.toNat + 1 := by
  have hN : s.recLen < 256 := s.cfgLen.isLt
  simp only [BitVec.toNat_add, BitVec.toNat_ofNat]
  omega

theorem SendRow.coherent {s t : State} (h : Coherent s) (hs : Sending s) (row : SendRow s t) : Coherent t := by
  have hcrc := h.sendCrc hs
  have push {k : Index9} {c b : Byte} (hk : k.toNat < s.frameLen)
      (hc : c = s.crc8Fn.value (s.recMem.readRange 0 (k.toNat - 3))) :
      Coherent { s with txK := k, txCrc := c, tx := s.tx ++ [b] } :=
    (h.sendAt hk hc).withAgents
  cases row with
  | hold => exact h
  | hdr1 hr hk => exact push (by simp [State.frameLen]) (by simpa [hk] using hcrc)
  | hdr2 hr hk => exact push (by simp [State.frameLen]) (by simpa [hk] using hcrc)
  | len hr hk => exact push (by simp [State.frameLen]) (by simpa [hk] using hcrc)
  | pay hr h3 hk =>
    have hnext := txK_succ_toNat hk
    refine push (by rw [hnext, State.frameLen]; omega) ?_
    rw [hnext, Nat.sub_add_comm h3, Memory.readRange_succ, Nat.zero_add, hcrc]
    exact update_value _ _ _
  | crc => exact h.idle.withAgents
  | past => exact h.respond _

theorem BlockCase.coherent {s t : State} (h : Coherent s) (hc : BlockCase s t) : Coherent t := by
  cases hc with
  | idle => exact h
  | poll hp row => exact row.coherent h hp
  | send hs row => exact row.coherent h hs

theorem CommandCase.coherent {w : Word10} {s t : State} (h : Coherent s) (hc : CommandCase w s t) : Coherent t := by
  cases hc with
  | away => exact h
  | badCmd => exact h.raiseFault _
  | badLen => exact h.raiseFault _
  | begin hf hn => exact h.begin hn
  | unconfigured => exact h.raiseFault _
  | send hf hcfg => exact h.accept hf hcfg (cmd := .send) nofun fun _ => ⟨rfl, rfl⟩
  | poll hf hcfg => exact h.accept hf hcfg (cmd := .poll) nofun nofun

theorem AgentCase.coherent {s t : State} {a : AgentMove} (h : Coherent s) (hc : AgentCase s a t) : Coherent t := by
  cases hc with
  | issue hb hw => exact hw.coherent h
  | await => exact h
  | hazardRead => exact h.raiseFault _
  | hostRead => exact h.withAgents
  | hazardWrite => exact h.raiseFault _
  | hostWrite hi hb =>
    exact h.withRec (not_sending_of_idle hb) (Memory.wf_write h.recWf _ _) (Memory.below_write h.recBelow _ hi)
  | rxAppend => exact h.withAgents
  | txReady => exact h.withAgents
  | txTake => exact h.withAgents
  | block hb => exact hb.coherent h
  | hwReset => exact coherent_hwReset h.recWf h.recBelow
  | hwResetInCopy => exact h.hwResetInCopy

theorem Coherent.withAgenda {s : State} (h : Coherent s) (ms : List AgentMove) : Coherent (s.withAgenda ms) :=
  h.withAgents

/-- Settles O39: by the cases of a step, each of which keeps the invariant. -/
theorem stepKeepsInvariant : Obligations.StepKeepsInvariant := by
  intro s t h hstep
  cases step_next hstep with
  | block _ hb => exact hb.coherent h
  | action _ ha => exact ha.coherent (h.withAgenda _)

/-- Settles O38: every clause by evaluation, and with no command in flight those of a command are empty. -/
theorem resetSatisfiesInvariant : Obligations.ResetSatisfiesInvariant :=
  { recWf := rfl
    recBelow := rfl
    scrWf := rfl
    scrBelow := rfl
    cursorZero := fun _ => rfl
    cursorBound := Nat.zero_le _
    configured := nofun
    unconfigured := fun _ => ⟨rfl, rfl⟩
    busyConfigured := nofun
    busyUnfaulted := nofun
    busyCommand := nofun
    sendIndex := fun hs => nomatch hs.1
    sendCrc := fun hs => nomatch hs.1 }

/-- Settles O40: the invariant holds at reset, every step keeps it, and R27 is one of its clauses. -/
theorem cursorZeroOutsidePay : Obligations.CursorZeroOutsidePay :=
  ⟨resetSatisfiesInvariant, fun _ _ _ h hrun => (runSteps_invariant stepKeepsInvariant h hrun).cursorZero⟩

/-- Settles O6: by evaluation of the two code tables. -/
theorem stateAndFaultCodes : Obligations.StateAndFaultCodes := by
  refine ⟨?_, ?_, ?_, ?_, ?_, ?_, ?_, ?_⟩ <;> rfl

/-- Settles O36: the action at the head of the schedule is `hwReset`, which writes its values whatever the state is. -/
theorem resetValues : Obligations.ResetValues := by
  refine ⟨⟨rfl, rfl, rfl, rfl, rfl, rfl⟩, fun s rest hs => ⟨hwReset (s.withAgenda rest), step_agent hs rfl, ?_⟩⟩
  simp

/-! ### Configuration (R22, R23, R143) -/

/-- The Block is configured in `t` as it is in `s`, with the same CRC8. -/
structure SameConfig (s t : State) : Prop where
  crc8Fn : t.crc8Fn = s.crc8Fn
  cfgLen : t.cfgLen = s.cfgLen
  cfgValid : t.cfgValid = s.cfgValid

theorem PollRow.sameConfig {s t : State} (row : PollRow s t) : SameConfig s t := by
  cases row with
  | payLast => constructor <;> simp
  | _ => exact ⟨rfl, rfl, rfl⟩

theorem SendRow.sameConfig {s t : State} (row : SendRow s t) : SameConfig s t := by
  cases row <;> exact ⟨rfl, rfl, rfl⟩

theorem BlockCase.sameConfig {s t : State} (hc : BlockCase s t) : SameConfig s t := by
  cases hc with
  | idle => exact ⟨rfl, rfl, rfl⟩
  | poll _ row => exact row.sameConfig
  | send _ row => exact row.sameConfig

/-- Of the commands only BEGIN configures (R61, R80). -/
theorem CommandCase.sameConfig_or_begin {w : Word10} {s t : State} (hc : CommandCase w s t) :
    SameConfig s t ∨
      t.crc8Fn = s.crc8Fn ∧ hiField w = 0b01#2 ∧ t.cfgLen = loField w ∧ t.cfgValid = true := by
  cases hc with
  | begin hf hn hd =>
    obtain ⟨hhi, hlo⟩ := decodeCmd_begin hd
    exact .inr ⟨rfl, hhi, hlo.symm, rfl⟩
  | _ => exact .inl ⟨rfl, rfl, rfl⟩

theorem hwResetInCopy_crc8Fn (s : State) : (hwResetInCopy s).crc8Fn = s.crc8Fn := by
  rcases hwResetInCopy_cases s with e | ⟨b, rest, -, -, -, e⟩ <;> rw [e] <;> rfl

/-- Settles O42: by the cases of a step, all of which but a BEGIN and the two resets keep the configuration. -/
theorem onlyBeginConfigures : Obligations.OnlyBeginConfigures := by
  intro s t hstep
  have keeps {u : State} (h : SameConfig u t) (hcrc : u.crc8Fn = s.crc8Fn) (hlen : u.cfgLen = s.cfgLen)
      (hval : u.cfgValid = s.cfgValid) {P : Prop} :
      t.crc8Fn = s.crc8Fn ∧ (t.cfgLen ≠ s.cfgLen ∨ t.cfgValid ≠ s.cfgValid → P) :=
    ⟨h.crc8Fn.trans hcrc, fun hne => (hne.elim (· (h.cfgLen.trans hlen)) (· (h.cfgValid.trans hval))).elim⟩
  cases step_next hstep with
  | block _ hb => exact keeps hb.sameConfig rfl rfl rfl
  | action hs ha =>
    cases ha with
    | issue _ hw =>
      rcases hw.sameConfig_or_begin with h | ⟨hcrc, hhi, hlen, hval⟩
      · exact keeps h rfl rfl rfl
      · exact ⟨hcrc, fun _ => .inl ⟨_, _, hs, hhi, hlen, hval⟩⟩
    | block hb => exact keeps hb.sameConfig rfl rfl rfl
    | hwReset => exact ⟨rfl, fun _ => .inr (.inl ⟨_, hs⟩)⟩
    | hwResetInCopy => exact ⟨hwResetInCopy_crc8Fn _, fun _ => .inr (.inr ⟨_, hs⟩)⟩
    | _ => exact keeps (u := s) ⟨rfl, rfl, rfl⟩ rfl rfl rfl

/-! ### Responses (R32, R100, R111) -/

/-- The step from `s` to `t` copies a frame with a valid checksum into REC (R109). -/
def CopiesFrame (s t : State) : Prop :=
  s.rxState = .pay ∧ s.rxCursor.toNat = s.recLen ∧
    (∃ b rest, s.rx = b :: rest ∧ s.crc8Fn.value (s.scr.readRange 0 s.recLen) = b) ∧
    t.recMem = s.recMem.writeRange 0 (s.scr.readRange 0 s.recLen)

/-- The step from `s` to `t` delivers `o`, and if that is a POLL's response it ends the POLL and tells whether a frame was
copied. -/
def Delivers (s t : State) (o : HostObs) : Prop :=
  t.hostLog = s.hostLog ++ [o] ∧ ∀ v, o = .ok v → Polling s ∧ t.busy = false ∧ (v = true ↔ CopiesFrame s t)

theorem Delivers.ok_false {s t : State} (hp : Polling s) (hlog : t.hostLog = s.hostLog ++ [.ok false])
    (hb : t.busy = false) (hc : ¬ CopiesFrame s t) : Delivers s t (.ok false) :=
  ⟨hlog, fun v hv => by cases hv; exact ⟨hp, hb, by simp [hc]⟩⟩

theorem checksumOk_payload_iff {s : State} {b : Byte} :
    checksumOk s.crc8Fn s.payload b = true ↔ s.crc8Fn.value (s.scr.readRange 0 s.recLen) = b := by
  simp [checksumOk, State.payload]

/-- RX_PAY_LAST responds whether it copied (R109). -/
theorem delivers_finishFrame {s : State} {b : Byte} {rest : List Byte} (h : Coherent s) (hp : Polling s)
    (hst : s.rxState = .pay) (hrx : s.rx = b :: rest) (hc : s.rxCursor.toNat = s.recLen) :
    Delivers s (finishFrame (storeCrc b s)) (.ok (checksumOk s.crc8Fn s.payload b)) := by
  have hok := frameOk_storeCrc h.scrWf b
  refine ⟨by simp [hok], fun v hv => ?_⟩
  cases hv
  refine ⟨hp, rfl, fun hv => ⟨hst, hc, ⟨b, rest, hrx, checksumOk_payload_iff.1 hv⟩, ?_⟩, ?_⟩
  · simp only [finishFrame_recMem, hok, hv, payload_storeCrc]
    rfl
  · rintro ⟨-, -, ⟨b', rest', hrx', hv⟩, -⟩
    obtain rfl : b' = b := by simp_all
    exact checksumOk_payload_iff.2 hv

theorem PollRow.delivers {s t : State} (h : Coherent s) (hp : Polling s) (row : PollRow s t) :
    t.hostLog = s.hostLog ∨ ∃ o, Delivers s t o := by
  cases row with
  | empty hrx => exact .inr ⟨_, .ok_false hp rfl rfl (by simp [CopiesFrame, hrx])⟩
  | h2Bad hst => exact .inr ⟨_, .ok_false hp rfl rfl (by simp [CopiesFrame, hst])⟩
  | lenBad hst => exact .inr ⟨_, .ok_false hp rfl rfl (by simp [CopiesFrame, hst])⟩
  | payLast hst hrx hc => exact .inr ⟨_, delivers_finishFrame h hp hst hrx hc⟩
  | _ => exact .inl rfl

theorem SendRow.delivers {s t : State} (row : SendRow s t) : t.hostLog = s.hostLog ∨ ∃ o, Delivers s t o := by
  cases row with
  | crc => exact .inr ⟨.done, rfl, nofun⟩
  | past => exact .inr ⟨.done, rfl, nofun⟩
  | _ => exact .inl rfl

theorem BlockCase.delivers {s t : State} (h : Coherent s) (hc : BlockCase s t) :
    t.hostLog = s.hostLog ∨ ∃ o, Delivers s t o := by
  cases hc with
  | idle => exact .inl rfl
  | poll hp row => exact row.delivers h hp
  | send _ row => exact row.delivers

theorem CommandCase.delivers {w : Word10} {s t : State} (hc : CommandCase w s t) :
    t.hostLog = s.hostLog ∨ ∃ o, Delivers s t o := by
  cases hc with
  | begin => exact .inr ⟨.done, rfl, nofun⟩
  | _ => exact .inl rfl

theorem hwResetInCopy_hostLog (s : State) : (hwResetInCopy s).hostLog = s.hostLog := by
  rcases hwResetInCopy_cases s with e | ⟨b, rest, -, -, -, e⟩ <;> rw [e] <;> rfl

theorem AgentCase.delivers {s t : State} {a : AgentMove} (h : Coherent s) (hc : AgentCase s a t) :
    t.hostLog = s.hostLog ∨ ∃ o, Delivers s t o := by
  cases hc with
  | issue _ hw => exact hw.delivers
  | hostRead => exact .inr ⟨.recByte _ _, rfl, nofun⟩
  | block hb => exact hb.delivers h
  | hwResetInCopy => exact .inl (hwResetInCopy_hostLog s)
  | _ => exact .inl rfl

theorem step_delivers {s t : State} (h : Coherent s) (hstep : step s = .next t) :
    t.hostLog = s.hostLog ∨ ∃ o, Delivers s t o := by
  cases step_next hstep with
  | block _ hb => exact hb.delivers h
  | @action _ rest _ _ ha => exact (ha.delivers (h.withAgenda rest) :)

/-- Settles O45: a step delivers nothing or one observation, and only the end of a POLL delivers `ok`. -/
theorem responseEndsPoll : Obligations.ResponseEndsPoll := by
  intro s t h hstep
  rcases step_delivers h hstep with hlog | ⟨o, hlog, ho⟩
  · exact ⟨.inl hlog, fun v hv => absurd (hlog.symm.trans hv) (by simp)⟩
  · exact ⟨.inr ⟨o, hlog⟩, fun v hv => ho v (by simpa using hlog.symm.trans hv)⟩

/-! ### The scratch store in PAY (R28, R108) -/

/-- A byte waiting in PAY below N: the Block's next micro-step is RX_PAY_STORE. -/
theorem blockStep_payStore {s : State} {b : Byte} {rest : List Byte} (hp : Polling s) (hst : s.rxState = .pay)
    (hrx : s.rx = b :: rest) (hc : s.rxCursor.toNat < s.recLen) :
    blockStep s =
      .next { s.rxPop with scr := s.scr.write s.rxCursor.toNat b, rxCursor := s.rxCursor + 1#9 } := by
  obtain ⟨t, ht, row⟩ := blockStep_poll hp fun _ _ => hc.le
  rw [ht]
  cases row with
  | payStore _ hrx' =>
    cases hrx.symm.trans hrx'
    rfl
  | _ => simp_all

/-- Settles O48: by induction on the bytes, one RX_PAY_STORE for each. -/
theorem scratchHoldsPayloadPrefix : Obligations.ScratchHoldsPayloadPrefix := by
  intro s bs rest h hp hu hst hrx hlen
  induction bs generalizing s with
  | nil => exact ⟨s, rfl, hp, hst, rfl, by simp, hrx, rfl, rfl⟩
  | cons b bs ih =>
    simp only [List.length_cons] at hlen
    have hc : s.rxCursor.toNat < s.recLen := by omega
    have hstep := (step_undisturbed hu hp.1).trans (blockStep_payStore hp hst hrx hc)
    have hnext := cursor_succ_toNat hc
    have hbound : (s.rxCursor + 1#9).toNat + bs.length ≤ s.recLen := by omega
    obtain ⟨t, hrun, hpt, hstt, hct, hscr, hrest, hrec, hlog⟩ := ih _ (stepKeepsInvariant _ _ h hstep) hp hu hst
      (by simp [hrx]) hbound
    refine ⟨t, (runSteps_succ hstep).trans hrun, hpt, hstt, ?_, ?_, hrest, hrec, hlog⟩
    · rw [hct, hnext, List.length_cons]
      omega
    · have hend := Memory.readRange_write_end h.scrWf 0 s.rxCursor.toNat b
      rw [Nat.zero_add] at hend
      rw [hscr, hnext, hend, List.append_assoc, List.singleton_append]

/-! ### The transmit stream of a SEND (R43, R91, R98) -/

/-- The payload part of a frame image. -/
theorem getElem?_frameOf_payload (f : Checksum) (n : Byte) (p : List Byte) {k : Nat} (h3 : 3 ≤ k)
    (hk : k < p.length + 3) : (frameOf f n p)[k]? = p[k - 3]? := by
  obtain ⟨i, rfl⟩ := Nat.exists_eq_add_of_le' h3
  simp [frameOf, List.getElem?_append_left (show i < p.length by omega)]

/-- The last byte of a frame image. -/
theorem getElem?_frameOf_crc (f : Checksum) (n : Byte) (p : List Byte) :
    (frameOf f n p)[p.length + 3]? = some (f.value p) := by
  simp [frameOf]

/-- The step from `s` to `t` appends the frame byte at index `tx_k`, and moves `tx_k` on. -/
def PushesFrameByte (s t : State) : Prop :=
  ∃ b, (frameOf s.crc8Fn s.cfgLen s.record)[s.txK.toNat]? = some b ∧ t.tx = s.tx ++ [b] ∧
    t.txK.toNat = s.txK.toNat + 1 ∧ t.recMem = s.recMem ∧ t.cfgLen = s.cfgLen

/-- The step from `s` to `t` appends nothing, and leaves a SEND that is still in flight where it was. -/
def PushesNothing (s t : State) : Prop :=
  t.tx = s.tx ∧ (Sending t → t.txK = s.txK ∧ t.recMem = s.recMem ∧ t.cfgLen = s.cfgLen)

theorem pushesNothing_of_idle {s t : State} (htx : t.tx = s.tx) (hb : t.busy = false) : PushesNothing s t :=
  ⟨htx, fun ht => absurd ht (not_sending_of_idle hb)⟩

theorem SendRow.follows_frame {s t : State} (h : Coherent s) (hs : Sending s) (row : SendRow s t) :
    PushesFrameByte s t ∨ PushesNothing s t := by
  have hN : s.recLen < 256 := s.cfgLen.isLt
  have hlen : s.record.length = s.recLen := Memory.length_readRange _ _ _
  cases row with
  | hold => exact .inr ⟨rfl, fun _ => ⟨rfl, rfl, rfl⟩⟩
  | hdr1 hr hk => exact .inl ⟨Config.hdr1, by rw [hk]; rfl, rfl, by rw [hk]; rfl, rfl, rfl⟩
  | hdr2 hr hk => exact .inl ⟨Config.hdr2, by rw [hk]; rfl, rfl, by rw [hk]; rfl, rfl, rfl⟩
  | len hr hk => exact .inl ⟨s.cfgLen, by rw [hk]; rfl, rfl, by rw [hk]; rfl, rfl, rfl⟩
  | pay hr h3 hk =>
    refine .inl ⟨s.recMem.read (s.txK.toNat - 3), ?_, rfl, txK_succ_toNat hk, rfl, rfl⟩
    have hi : s.txK.toNat - 3 < s.record.length := by omega
    rw [getElem?_frameOf_payload _ _ _ h3 (by omega), List.getElem?_eq_getElem hi]
    exact congrArg some ((Memory.getElem_readRange s.recMem 0 s.recLen _ hi).trans (by rw [Nat.zero_add]))
  | crc hr hk =>
    refine .inl ⟨s.txCrc, ?_, rfl, ?_, rfl, rfl⟩
    · have hcrc := h.sendCrc hs
      rw [hk, Nat.add_sub_cancel] at hcrc
      rw [hk, ← hlen, getElem?_frameOf_crc, hcrc]
      rfl
    · have hz : s.cfgLen.toNat = s.recLen := rfl
      simp only [BitVec.toNat_add, BitVec.truncate_eq_setWidth, BitVec.toNat_setWidth, BitVec.toNat_ofNat]
      omega
  | past => exact .inr (pushesNothing_of_idle rfl rfl)

theorem BlockCase.follows_frame {s t : State} (h : Coherent s) (hs : Sending s) (hc : BlockCase s t) :
    PushesFrameByte s t ∨ PushesNothing s t := by
  cases hc with
  | idle hb => exact absurd hs (not_sending_of_idle hb)
  | poll hp => exact absurd hs (not_sending_of_polling hp)
  | send _ row => exact row.follows_frame h hs

theorem pushesNothing_hwResetInCopy (s : State) : PushesNothing s (hwResetInCopy s) := by
  rcases hwResetInCopy_cases s with e | ⟨b, rest, -, -, -, e⟩ <;> rw [e] <;> exact pushesNothing_of_idle rfl rfl

/-- While a SEND is in flight an action of an agent does what the Block does, appends nothing, or is the sink's removal. -/
theorem AgentCase.follows_frame {s t : State} {a : AgentMove} (h : Coherent s) (hs : Sending s) (hc : AgentCase s a t) :
    PushesFrameByte s t ∨ PushesNothing s t ∨ a = .txTake ∧ t = { s with tx := s.tx.tail } := by
  cases hc with
  | issue hb => exact absurd hs (not_sending_of_idle hb)
  | await hb => exact absurd hs (not_sending_of_idle hb)
  | hostRead _ hb => exact absurd hs (not_sending_of_idle hb)
  | hostWrite _ hb => exact absurd hs (not_sending_of_idle hb)
  | hazardRead => exact .inr (.inl (pushesNothing_of_idle rfl rfl))
  | hazardWrite => exact .inr (.inl (pushesNothing_of_idle rfl rfl))
  | rxAppend => exact .inr (.inl ⟨rfl, fun _ => ⟨rfl, rfl, rfl⟩⟩)
  | txReady => exact .inr (.inl ⟨rfl, fun _ => ⟨rfl, rfl, rfl⟩⟩)
  | txTake => exact .inr (.inr ⟨rfl, rfl⟩)
  | block hb => exact (hb.follows_frame h hs).imp_right .inl
  | hwReset => exact .inr (.inl (pushesNothing_of_idle rfl rfl))
  | hwResetInCopy => exact .inr (.inl (pushesNothing_hwResetInCopy s))

/-- Settles O58: by the cases of a step with a SEND in flight. -/
theorem sendStepsFollowFrame : Obligations.SendStepsFollowFrame := by
  intro s t h hs hstep
  cases step_next hstep with
  | block _ hb => exact (hb.follows_frame h hs).imp_right .inl
  | @action _ rest _ hsch ha =>
    rcases ha.follows_frame (h.withAgenda rest) hs with hpush | hnone | ⟨rfl, rfl⟩
    · exact .inl hpush
    · exact .inr (.inl hnone)
    · exact .inr (.inr ⟨rfl, ⟨_, hsch⟩, hs, rfl, rfl, rfl⟩)

end Sys2Proof.Machine
end

section
/-! SUPPORT. Proofs of the statements about REC and the streams: the Host's accesses, the transport's steps, what writes REC,
and that a step always answers. -/

namespace Sys2Proof.Machine

/-! ### The Host's accesses and the transport (R42, R43, R154) -/

/-- An access at an index that a record can have always answers (R40). -/
theorem onRecAccess_of_lt {i : Nat} (s u : State) (hi : i < Config.recCap) :
    onRecAccess i s u = .next (if s.busy then raiseFault .hazard s else u) := by
  unfold onRecAccess
  rw [if_neg (Nat.not_le.2 hi)]
  split <;> rfl

/-- While a command is in flight, an access at such an index is the hazard, whatever its effect would be (R154). -/
theorem onRecAccess_hazard {i : Nat} {s u : State} (hi : i < Config.recCap) (hb : s.busy = true) :
    onRecAccess i s u = .next (raiseFault .hazard s) := by
  rw [onRecAccess_of_lt s u hi, if_pos hb]

/-- Settles O32: reads and writes share one access rule, which with a command in flight is fault entry. -/
theorem recAccessWhileBusyFaults : Obligations.RecAccessWhileBusyFaults := by
  rintro s a rest i hb hi (rfl | ⟨v, rfl⟩) hs
  · exact (step_agent hs rfl).trans (onRecAccess_hazard hi hb)
  · exact (step_agent hs rfl).trans (onRecAccess_hazard hi hb)

/-- Settles O34: each action is at the head of the schedule, does not wait, and is one field's update. -/
theorem transportActions : Obligations.TransportActions := by
  intro s rest bs b r
  refine ⟨fun hs => step_agent hs rfl, fun hs htx => ?_, fun hs => step_agent hs rfl⟩
  have htail : s.tx.tail = bs := by rw [htx, List.tail_cons]
  rw [step_agent hs rfl, ← htail]
  rfl

/-! ### A step always answers (R45, R69, R70, R152) -/

/-- In a coherent state the Block has a micro-step: BEGIN is not in flight, and the cursor selects a row (R26, R80). -/
theorem Coherent.blockStep_answers {s : State} (h : Coherent s) : ∃ t, blockStep s = .next t := by
  cases hb : s.busy with
  | false => exact ⟨s, by simp [blockStep, hb]⟩
  | true =>
    cases hcmd : s.curCmd with
    | begin => exact absurd hcmd (h.busyCommand hb)
    | send => exact (blockStep_send ⟨hb, hcmd⟩).imp fun _ => And.left
    | poll => exact (blockStep_poll ⟨hb, hcmd⟩ fun _ _ => h.cursorBound).imp fun _ => And.left

/-- An action for which the Host does not wait answers, but for an access at an index no record has. -/
theorem Coherent.agentStep_answers {s : State} {a : AgentMove} (h : Coherent s) (hw : (a.waits && s.busy) = false)
    (hread : ∀ i, a = .hostRead i → i < Config.recCap) (hwrite : ∀ i v, a = .hostWrite i v → i < Config.recCap) :
    ∃ t, agentStep a s = .next t := by
  cases a with
  | issue w => exact (presentCommand_total w hw).imp fun _ => And.left
  | hostRead i => exact ⟨_, onRecAccess_of_lt s _ (hread i rfl)⟩
  | hostWrite i v => exact ⟨_, onRecAccess_of_lt s _ (hwrite i v rfl)⟩
  | block => exact h.blockStep_answers
  | _ => exact ⟨_, rfl⟩

/-- Settles O41: a step is a move of the Block or the first action of the schedule, and each of these answers. -/
theorem stepAlwaysAnswers : Obligations.StepAlwaysAnswers := by
  intro s h hread hwrite
  cases hs : s.schedule with
  | nil => exact step_block (.inl hs) ▸ h.blockStep_answers
  | cons a rest =>
    cases hw : a.waits && s.busy with
    | true =>
      rw [step_block (.inr ⟨a, rest, hs, Bool.and_eq_true_iff.1 hw⟩)]
      exact h.blockStep_answers
    | false =>
      rw [step_agent hs hw]
      exact (h.withAgenda rest).agentStep_answers hw (fun i ha => hread i rest (ha ▸ hs))
        fun i v ha => hwrite i v rest (ha ▸ hs)

/-! ### What writes REC (R40, R109, R171) -/

/-- The Block's next micro-step is the copy of a frame with a valid checksum into REC (R109). -/
def CopyDue (s : State) : Prop :=
  Polling s ∧ s.rxState = .pay ∧ s.rxCursor.toNat = s.recLen ∧
    ∃ b rest, s.rx = b :: rest ∧ s.crc8Fn.value (s.scr.readRange 0 s.recLen) = b

/-- The step from `s` to `t` copies the payload into REC and delivers the response true. -/
def CopiesAndResponds (s t : State) : Prop :=
  t.recMem = s.recMem.writeRange 0 (s.scr.readRange 0 s.recLen) ∧ t.hostLog = s.hostLog ++ [.ok true]

/-- RX_PAY_LAST is the one receive row that writes REC, and does so only for a valid checksum. -/
theorem PollRow.recMem_eq_or_copies {s t : State} (h : Coherent s) (hp : Polling s) (row : PollRow s t) :
    t.recMem = s.recMem ∨ CopyDue s ∧ CopiesAndResponds s t := by
  cases row with
  | @payLast b rest hst hrx hc =>
    have hframe := frameOk_storeCrc h.scrWf b
    cases hok : checksumOk s.crc8Fn s.payload b with
    | false => exact .inl (by simp [hframe, hok])
    | true =>
      refine .inr ⟨⟨hp, hst, hc, b, rest, hrx, checksumOk_payload_iff.1 hok⟩, ?_, ?_⟩
      · rw [finishFrame_recMem, hframe, if_pos hok, payload_storeCrc]
        rfl
      · simp [hframe, hok]
  | _ => exact .inl rfl

theorem SendRow.recMem_eq {s t : State} (row : SendRow s t) : t.recMem = s.recMem := by
  cases row <;> rfl

theorem BlockCase.recMem_eq_or_copies {s t : State} (h : Coherent s) (hc : BlockCase s t) :
    t.recMem = s.recMem ∨ CopyDue s ∧ CopiesAndResponds s t := by
  cases hc with
  | idle => exact .inl rfl
  | poll hp row => exact row.recMem_eq_or_copies h hp
  | send _ row => exact .inl row.recMem_eq

theorem CommandCase.recMem_eq {w : Word10} {s t : State} (hc : CommandCase w s t) : t.recMem = s.recMem := by
  cases hc <;> rfl

/-- A reset changes REC only inside the copy of a valid frame (R170, R171). -/
theorem recMem_hwResetInCopy_eq_or_copyDue (s : State) : (hwResetInCopy s).recMem = s.recMem ∨ CopyDue s := by
  rcases hwResetInCopy_cases s with e | ⟨b, rest, hrx, hsel, hok, -⟩
  · exact .inl (by rw [e, hwReset_recMem])
  · obtain ⟨hp, hst, hc⟩ := selects_rxPayLast hrx hsel
    exact .inr ⟨hp, hst, hc, b, rest, hrx, checksumOk_payload_iff.1 hok⟩

theorem AgentCase.recMem_eq_or_written {s t : State} {a : AgentMove} (h : Coherent s) (hc : AgentCase s a t) :
    t.recMem = s.recMem ∨ (∃ i v, a = .hostWrite i v) ∨
      CopyDue s ∧ (CopiesAndResponds s t ∨ a = .hwResetInCopy ∧ t.hostLog = s.hostLog) := by
  cases hc with
  | issue _ hw => exact .inl hw.recMem_eq
  | hostWrite => exact .inr (.inl ⟨_, _, rfl⟩)
  | block hb => exact (hb.recMem_eq_or_copies h).imp_right fun ⟨hdue, hcopy⟩ => .inr ⟨hdue, .inl hcopy⟩
  | hwResetInCopy =>
    exact (recMem_hwResetInCopy_eq_or_copyDue s).imp_right fun hdue =>
      .inr ⟨hdue, .inr ⟨rfl, hwResetInCopy_hostLog s⟩⟩
  | _ => exact .inl rfl

/-- Settles O43: by the cases of a step, of which only the Host's write, the copy and a reset inside it write REC. -/
theorem recWrittenOnlyByValidFrame : Obligations.RecWrittenOnlyByValidFrame := by
  intro s t h hstep hne
  cases step_next hstep with
  | block _ hb =>
    rcases hb.recMem_eq_or_copies h with heq | ⟨⟨hp, hst, hc, hbyte⟩, hcopy⟩
    · exact absurd heq hne
    · exact .inr ⟨hp, hst, hc, hbyte, .inl hcopy⟩
  | @action a rest _ hs ha =>
    rcases ha.recMem_eq_or_written (h.withAgenda rest) with
      heq | ⟨i, v, rfl⟩ | ⟨⟨hp, hst, hc, hbyte⟩, hcopy | ⟨rfl, hlog⟩⟩
    · exact absurd heq hne
    · exact .inl ⟨i, v, rest, hs⟩
    · exact .inr ⟨hp, hst, hc, hbyte, .inl hcopy⟩
    · exact .inr ⟨hp, hst, hc, hbyte, .inr ⟨⟨rest, hs⟩, hlog⟩⟩

end Sys2Proof.Machine
end

section
/-! SUPPORT. Proofs of the statements about the encodings: what each decoder can answer, that decoding and encoding undo each
other, and that a step runs what the Block decodes. -/

namespace Sys2Proof

/-! ### Command words (R60, R61, R63) -/

/-- A word is put together from its two fields. -/
theorem eq_word10_of_fields {w : Word10} {h : BitVec 2} {b : Byte} (hh : hiField w = h) (hl : loField w = b) :
    w = word10 h b := by
  rw [← hh, ← hl, word10_fields]

theorem hiField_and (w m : Word10) : hiField (w &&& m) = hiField w &&& hiField m := BitVec.extractLsb'_and

/-- The word is assigned to no command: op 00, or a non-zero operand where the command has none (R63). -/
def ReservedWord (w : Word10) : Prop :=
  hiField w = 0b00#2 ∨ hiField w = 0b10#2 ∧ loField w ≠ 0x00#8 ∨ hiField w = 0b11#2 ∧ loField w ≠ 0x00#8

theorem decodeCmd_of_op01 {w : Word10} (h : hiField w = 0b01#2) : decodeCmd w = .instr (.begin (loField w)) := by
  simp [decodeCmd, h]

theorem decodeCmd_of_reserved {w : Word10} (h : ReservedWord w) : ∃ r, decodeCmd w = .reject r := by
  rcases h with hh | ⟨hh, hl⟩ | ⟨hh, hl⟩
  · exact ⟨.reservedOp, by simp [decodeCmd, hh]⟩
  · exact ⟨.reservedOperand, by simp [decodeCmd, hh, hl]⟩
  · exact ⟨.reservedOperand, by simp [decodeCmd, hh, hl]⟩

/-- The words that are not reserved are those of the three commands. -/
theorem reservedWord_or_command (w : Word10) :
    ReservedWord w ∨ hiField w = 0b01#2 ∨ w = 0x200#10 ∨ w = 0x300#10 := by
  have ops : ∀ h : BitVec 2, h = 0b00#2 ∨ h = 0b01#2 ∨ h = 0b10#2 ∨ h = 0b11#2 := by decide
  rcases ops (hiField w) with hh | hh | hh | hh
  · exact .inl (.inl hh)
  · exact .inr (.inl hh)
  · by_cases hl : loField w = 0x00#8
    · exact .inr (.inr (.inl (eq_word10_of_fields hh hl)))
    · exact .inl (.inr (.inl ⟨hh, hl⟩))
  · by_cases hl : loField w = 0x00#8
    · exact .inr (.inr (.inr (eq_word10_of_fields hh hl)))
    · exact .inl (.inr (.inr ⟨hh, hl⟩))

/-- What a command word decodes to, if it decodes, and which word it then is. -/
theorem decodeCmd_instr {w : Word10} {i : Instr} (h : decodeCmd w = .instr i) :
    w = word10 0b01#2 (loField w) ∧ i = .begin (loField w) ∨ w = 0x200#10 ∧ i = .send ∨ w = 0x300#10 ∧ i = .poll := by
  rcases reservedWord_or_command w with hr | hop | rfl | rfl
  · obtain ⟨r, hr⟩ := decodeCmd_of_reserved hr
    cases hr.symm.trans h
  · cases (decodeCmd_of_op01 hop).symm.trans h
    exact .inl ⟨eq_word10_of_fields hop rfl, rfl⟩
  · cases h
    exact .inr (.inl ⟨rfl, rfl⟩)
  · cases h
    exact .inr (.inr ⟨rfl, rfl⟩)

theorem decodeCmd_toOption_eq_none_iff (w : Word10) : (decodeCmd w).toOption = none ↔ ReservedWord w := by
  constructor
  · intro h
    rcases reservedWord_or_command w with hr | hop | rfl | rfl
    · exact hr
    · rw [decodeCmd_of_op01 hop] at h
      cases h
    · cases h
    · cases h
  · intro h
    obtain ⟨r, hr⟩ := decodeCmd_of_reserved h
    rw [hr, Decoded.toOption]

/-- The reserved words as intervals of numbers. -/
theorem reservedWord_iff_toNat (w : Word10) :
    ReservedWord w ↔ w.toNat < 256 ∨ 512 < w.toNat ∧ w.toNat < 768 ∨ 768 < w.toNat := by
  have hw := w.isLt
  simp only [ReservedWord, ← BitVec.toNat_inj, ne_eq, hiField_toNat, loField_toNat, BitVec.toNat_ofNat]
  omega

/-- The three intervals hold 256, 255 and 255 numbers, and the gaps between them 257 and 1. -/
theorem count_reserved : Nat.count (fun k => k < 256 ∨ 512 < k ∧ k < 768 ∨ 768 < k) 1024 = 766 := by
  rw [show 1024 = 256 + (257 + (255 + (1 + 255))) from rfl]
  simp only [Nat.count_add]
  rw [Nat.count_iff_forall.2, Nat.count_iff_forall_not.2, Nat.count_iff_forall.2, Nat.count_iff_forall_not.2,
    Nat.count_iff_forall.2]
  all_goals
    intro k hk
    omega

theorem length_filter_reserved :
    ((List.range 1024).filter fun w => (decodeCmd (BitVec.ofNat 10 w)).toOption == none).length = 766 := by
  rw [← count_reserved, Nat.count, List.countP_eq_length_filter]
  refine congrArg List.length (List.filter_congr fun k hk => ?_)
  have hlt : k % 2 ^ 10 = k := Nat.mod_eq_of_lt (List.mem_range.1 hk)
  rw [Bool.eq_iff_iff, beq_iff_eq, decide_eq_true_iff, decodeCmd_toOption_eq_none_iff, reservedWord_iff_toNat,
    BitVec.toNat_ofNat, hlt]

/-- Settles O4: a mask of the op field leaves that field as it is, a mask of all ones the word, and the reserved words are
counted interval by interval. -/
theorem commandWordsMatchPatterns : Obligations.CommandWordsMatchPatterns := by
  have full : ∀ w : Word10, w &&& 0x3FF#10 = w := fun w => BitVec.and_allOnes
  refine ⟨fun w h => decodeCmd_of_op01 ?_, fun w h => ?_, fun w h => ?_, length_filter_reserved⟩
  · have hm := hiField_and w 0x300#10
    rw [h] at hm
    calc hiField w = hiField w &&& hiField 0x300#10 := BitVec.and_allOnes.symm
      _ = 0b01#2 := hm.symm
  · rw [full] at h
    rw [h]
    rfl
  · rw [full] at h
    rw [h]
    rfl

/-! ### Decoding inverts encoding and is inverted by it (R61, R69, R70) -/

/-- Settles O1: by the lemma of each instruction. -/
theorem decodeInvertsEncode : Obligations.DecodeInvertsEncode := by
  intro c i
  cases i with
  | begin n => exact Laws.DecodeEncode.begin n c
  | send => exact Laws.DecodeEncode.send c
  | poll => exact Laws.DecodeEncode.poll c
  | rxEmpty => exact Laws.DecodeEncode.rxEmpty c
  | rxH1Sync => exact Laws.DecodeEncode.rxH1Sync c
  | rxH1Skip b => exact Laws.DecodeEncode.rxH1Skip b c
  | rxH2Ok => exact Laws.DecodeEncode.rxH2Ok c
  | rxH2Bad b => exact Laws.DecodeEncode.rxH2Bad b c
  | rxLenOk b => exact Laws.DecodeEncode.rxLenOk b c
  | rxLenBad b => exact Laws.DecodeEncode.rxLenBad b c
  | rxPayStore b => exact Laws.DecodeEncode.rxPayStore b c
  | rxPayLast b => exact Laws.DecodeEncode.rxPayLast b c
  | txHdr1 => exact Laws.DecodeEncode.txHdr1 c
  | txHdr2 => exact Laws.DecodeEncode.txHdr2 c
  | txLen => exact Laws.DecodeEncode.txLen c
  | txPay k => exact Laws.DecodeEncode.txPay k c
  | txCrc => exact Laws.DecodeEncode.txCrc c

/-- The word `f` is the encoding of `i`, whose operand is in its range. -/
def EncodedAs (c : RowCtx) (i : Instr) (f : Fetched) : Prop := encode c i = f ∧ WellFormed c i = true

theorem encodedAs_of_decodeCmd {c : RowCtx} {w : Word10} {i : Instr} (h : decodeCmd w = .instr i) :
    EncodedAs c i (.cmd w) := by
  obtain ⟨hw, rfl⟩ | ⟨rfl, rfl⟩ | ⟨rfl, rfl⟩ := decodeCmd_instr h
  · exact ⟨congrArg Fetched.cmd hw.symm, rfl⟩
  · exact ⟨rfl, rfl⟩
  · exact ⟨rfl, rfl⟩

theorem encodedAs_of_decodeRxd {c : RowCtx} {w : Word10} {i : Instr} (h : decodeRxd c w = .instr i) :
    EncodedAs c i (.rxd w) := by
  have hw : w = word10 (RxState.ofCode (hiField w)).code (loField w) :=
    eq_word10_of_fields (RxState.code_ofCode _).symm rfl
  unfold decodeRxd at h
  generalize RxState.ofCode (hiField w) = st at h hw
  generalize loField w = b at h hw
  subst hw
  cases st with
  | h1 =>
    dsimp only at h
    split_ifs at h with hb
    · cases h
      exact ⟨hb ▸ rfl, rfl⟩
    · cases h
      exact ⟨rfl, bne_iff_ne.2 hb⟩
  | h2 =>
    dsimp only at h
    split_ifs at h with hb
    · cases h
      exact ⟨hb ▸ rfl, rfl⟩
    · cases h
      exact ⟨rfl, bne_iff_ne.2 hb⟩
  | len =>
    dsimp only at h
    split_ifs at h with hb
    · cases h
      exact ⟨rfl, beq_iff_eq.2 hb⟩
    · cases h
      exact ⟨rfl, bne_iff_ne.2 hb⟩
  | pay =>
    dsimp only at h
    split_ifs at h with hlt heq
    · cases h
      exact ⟨rfl, decide_eq_true hlt⟩
    · cases h
      exact ⟨rfl, decide_eq_true heq⟩

/-- A sum of a byte and a small constant is exact in the width of `tx_k` (R7, R30). -/
theorem toNat_zeroExtend_add_three (b : Byte) : (b.zeroExtend 9 + 3#9 : Index9).toNat = b.toNat + 3 := by
  have hb := b.isLt
  simp only [BitVec.toNat_add, BitVec.truncate_eq_setWidth, BitVec.toNat_setWidth, BitVec.toNat_ofNat]
  omega

theorem encodedAs_of_decodeTxk {c : RowCtx} {k : Index9} {i : Instr} (h : decodeTxk c k = .instr i) :
    EncodedAs c i (.txk k) := by
  have txk : ∀ {j : Index9}, j.toNat = k.toNat → Fetched.txk j = .txk k := fun hj =>
    congrArg Fetched.txk (BitVec.eq_of_toNat_eq hj)
  have hN := c.cfgLen.isLt
  unfold decodeTxk at h
  split_ifs at h with h0 h1 h2 hlt heq
  · cases h
    exact ⟨txk h0.symm, rfl⟩
  · cases h
    exact ⟨txk h1.symm, rfl⟩
  · cases h
    exact ⟨txk h2.symm, rfl⟩
  · cases h
    have hi : (BitVec.ofNat 8 (k.toNat - 3)).toNat = k.toNat - 3 := by
      rw [BitVec.toNat_ofNat]
      omega
    refine ⟨txk ?_, decide_eq_true ?_⟩
    · rw [toNat_zeroExtend_add_three, hi]
      omega
    · omega
  · cases h
    exact ⟨txk ((toNat_zeroExtend_add_three _).trans heq.symm), rfl⟩

/-- Settles O2: by the format of what is looked at. -/
theorem encodeInvertsDecode : Obligations.EncodeInvertsDecode := by
  intro c f i h
  cases f with
  | cmd w => exact encodedAs_of_decodeCmd h
  | noByte =>
    cases h
    exact ⟨rfl, rfl⟩
  | rxd w => exact encodedAs_of_decodeRxd h
  | txk k => exact encodedAs_of_decodeTxk h

/-- Settles O3: by evaluation of the decoder on each word. -/
theorem writtenWordsDecode : Obligations.WrittenWordsDecode := by
  rintro c rfl
  decide

/-- Settles O5: in PAY a cursor in its range is before N or at N; in each other state two rows share all the bytes. -/
theorem receiveTableTotal : Obligations.ReceiveTableTotal := by
  intro c w hc
  simp only [decode, decodeRxd]
  cases RxState.ofCode (hiField w) with
  | pay =>
    rcases hc.lt_or_eq with hlt | heq
    · exact ⟨_, if_pos hlt⟩
    · exact ⟨_, (if_neg heq.not_lt).trans (if_pos heq)⟩
  | _ =>
    dsimp only
    split <;> exact ⟨_, rfl⟩

end Sys2Proof

namespace Sys2Proof.Machine

/-! ### A step runs what the Block decodes (R61, R63, R69, R70) -/

/-- Where the Host waits no longer, a command word at the head of the schedule is presented to the Block (R64). -/
theorem step_issue {s : State} {w : Word10} {rest : List AgentMove} (hb : s.busy = false)
    (hs : s.schedule = .issue w :: rest) : step s = presentCommand w (s.withAgenda rest) :=
  step_agent hs hb

/-- Settles O7: the word is presented, and an unfaulted Block runs what it decodes to. -/
theorem stepRunsDecodedCommand : Obligations.StepRunsDecodedCommand := by
  intro s w rest i ⟨hb, hf⟩ hs hd
  rw [step_issue hb hs]
  exact presentCommand_run hf hd

theorem busy_of_fetched {s : State} {f : Fetched} (h : s.fetched = some f) : s.busy = true := by
  by_contra hb
  simp [State.fetched, hb] at h

/-- Settles O8: either way the step is a move of the Block, and the agenda has no part in what the Block looks at. -/
theorem stepRunsDecodedRow : Obligations.StepRunsDecodedRow := by
  refine fun s f i hf hd => ⟨fun hu => ?_, fun rest hs => ?_⟩
  · rw [step_undisturbed hu (busy_of_fetched hf)]
    exact blockStep_row hf hd
  · rw [step_agent hs rfl]
    exact blockStep_row (s := s.withAgenda rest) hf hd

/-- With no command in flight, fault entry writes the two fault registers only (R152). -/
theorem raiseFault_of_idle {s : State} (r : FaultReason) (hb : s.busy = false) :
    raiseFault r s = { s with faulted := true, faultReason := r } := by
  rw [raiseFault, ← hb]

/-- Settles O15: a reserved word decodes to no command, which for an idle Block is fault entry. -/
theorem reservedWordsFault : Obligations.ReservedWordsFault := by
  intro s w rest ⟨hb, hf⟩ hs hw
  obtain ⟨r, hr⟩ := decodeCmd_of_reserved hw
  have hf' : (s.withAgenda rest).faulted = false := hf
  have hb' : (s.withAgenda rest).busy = false := hb
  rw [step_issue hb hs, presentCommand_reserved hf' hr, raiseFault_of_idle _ hb']
  rfl

/-- The meaning of every instruction but the commands is guarded by its row's being selected (R69, R70). -/
theorem exec_eq_onRow {i : Instr} (s : State) (hsend : i ≠ .send) (hpoll : i ≠ .poll) (hbegin : ∀ n, i ≠ .begin n) :
    ∃ run, exec i s = onRow i s run := by
  cases i with
  | begin n => exact absurd rfl (hbegin n)
  | send => exact absurd rfl hsend
  | poll => exact absurd rfl hpoll
  | _ => exact ⟨_, rfl⟩

theorem onRow_of_not_selects {i : Instr} {s : State} {run : Result} (h : s.selects i = false) :
    onRow i s run = .refused .rowNotSelected := by
  simp [onRow, h]

/-- Settles O17: every row's meaning begins with the same guard, which fails. -/
theorem unselectedRowsRefused : Obligations.UnselectedRowsRefused := by
  intro s i hsend hpoll hbegin hsel
  obtain ⟨run, hrun⟩ := exec_eq_onRow s hsend hpoll hbegin
  rw [hrun, onRow_of_not_selects hsel]

end Sys2Proof.Machine
end

section
/-! SUPPORT. Proofs of the statements about the setup command BEGIN (40_setup.md). -/

namespace Sys2Proof.Machine

/-! ### What BEGIN answers when the Block accepts it (R80, R81) -/

theorem exec_begin_zero {s : State} (h : Accepting s) : exec (.begin 0#8) s = .next (raiseFault .badLen s) :=
  onAccept_of_accepting h.1 h.2

theorem exec_begin_of_ne_zero {s : State} {n : Byte} (h : Accepting s) (hn : n ≠ 0#8) :
    exec (.begin n) s = .next (respond .done (beginEffect n s)) :=
  (onAccept_of_accepting h.1 h.2).trans (if_neg hn)

/-! ### What a legal BEGIN changes (R80) -/

/-- Accepting BEGIN sets `busy` and the response clears it, so an idle Block has it as it was (R64). -/
theorem respond_beginEffect_of_idle {s : State} (n : Byte) (v : HostObs) (hb : s.busy = false) :
    respond v (beginEffect n s) =
      { s with
        cfgValid := true, cfgLen := n, rxState := .h1, rxCursor := 0#9, scr := (beginEffect n s).scr, curCmd := .begin
        hostLog := s.hostLog ++ [v] } := by
  rw [respond, ← hb]
  rfl

/-- Scratch bytes 0 to N, the N+1 bytes of a payload and its checksum, are cleared. -/
theorem read_beginEffect_scr_of_le {s : State} {n : Byte} (hw : s.scr.wf = true) {i : Nat} (hi : i ≤ n.toNat) :
    (beginEffect n s).scr.read i = 0x00#8 := by
  have hin : i < (List.replicate (n.toNat + 1) 0x00#8).length := by
    rw [List.length_replicate]
    omega
  have hread := Memory.read_writeRange_inside hw 0 _ i hin
  rwa [Nat.zero_add, List.getElem_replicate] at hread

theorem read_beginEffect_scr_of_lt (s : State) {n : Byte} {i : Nat} (hi : n.toNat < i) :
    (beginEffect n s).scr.read i = s.scr.read i := by
  have hout : 0 + (List.replicate (n.toNat + 1) 0x00#8).length ≤ i := by
    rw [List.length_replicate]
    omega
  exact Memory.read_writeRange_outside s.scr _ (.inr hout)

/-- Settles O10: the answer is the response to R80's effect, whose scratch store is a range write of zeros. -/
theorem beginConfigures : Obligations.BeginConfigures := by
  intro s n h hw hn
  exact ⟨_, exec_begin_of_ne_zero h hn, respond_beginEffect_of_idle n .done h.1,
    fun _ hi => read_beginEffect_scr_of_le hw hi, fun _ hi => read_beginEffect_scr_of_lt s hi⟩

/-- Settles O11: the answer is fault entry, which in an idle Block writes the two fault registers only. -/
theorem beginZeroFaults : Obligations.BeginZeroFaults := by
  intro s h
  rw [exec_begin_zero h, raiseFault_of_idle _ h.1]

end Sys2Proof.Machine
end

section
/-! SUPPORT. Proofs of the statements about the command SEND and its micro-steps (41_send.md): how it starts, what each
transmit row pushes, what it leaves alone, the frame that a whole SEND emits, and that a POLL receives it. -/

namespace Sys2Proof.Machine

/-! ### How a SEND starts (R64, R90) -/

/-- Settles O12: the acceptance and the configuration check both pass. -/
theorem sendStarts : Obligations.SendStarts := by
  intro s ⟨hb, hf⟩ hc
  refine ⟨(onAccept_of_accepting hb hf).trans (if_pos hc), fun hfn => ?_⟩
  rw [hfn]
  rfl

/-! ### What a transmit row does (R91-R96) -/

/-- The meaning of a row that the Block decodes is what stands behind its guard (R69, R70). -/
theorem exec_of_decode {s : State} {f : Fetched} {i : Instr} {run : Result} (hf : s.fetched = some f)
    (hd : decode s.rowCtx f = .instr i) (he : exec i s = onRow i s run) : exec i s = run :=
  he.trans (onRow_of_selects ((selects_iff hf).2 hd))

theorem txPush_of_ready {b : Byte} {s : State} (u : State) (hr : s.txReady = true) :
    txPush b s u = .next { u with tx := s.tx ++ [b] } := if_pos hr

theorem txPush_of_not_ready {b : Byte} {s : State} (u : State) (hr : s.txReady = false) : txPush b s u = .next s := by
  simp [txPush, hr]

/-- A transmit row that pushes `b` and then is in `u`: with the sink ready it does so, else it holds (R91). -/
theorem txRow_pushes_or_holds {s u : State} {i : Instr} {b : Byte} (hs : Sending s)
    (hd : decode s.rowCtx (.txk s.txK) = .instr i) (he : exec i s = onRow i s (txPush b s u)) :
    decode s.rowCtx (.txk s.txK) = .instr i ∧
      (s.txReady = true → exec i s = .next { u with tx := s.tx ++ [b] }) ∧
      (s.txReady = false → exec i s = .next s) := by
  have hrun := exec_of_decode (fetched_sending hs) hd he
  exact ⟨hd, fun hr => hrun.trans (txPush_of_ready u hr), fun hr => hrun.trans (txPush_of_not_ready u hr)⟩

/-- Settles O27: at `tx_k` 0 the row is TX_HDR1. -/
theorem header1Sent : Obligations.Header1Sent := fun s hs hk =>
  txRow_pushes_or_holds hs (by rw [hk]; rfl) rfl

/-- Settles O28: at `tx_k` 1 the row is TX_HDR2. -/
theorem header2Sent : Obligations.Header2Sent := fun s hs hk =>
  txRow_pushes_or_holds hs (by rw [hk]; rfl) rfl

/-- Settles O29: at `tx_k` 2 the row is TX_LEN, which pushes `cfg_len`. -/
theorem lengthSent : Obligations.LengthSent := fun s hs hk =>
  txRow_pushes_or_holds hs (by rw [hk]; rfl) rfl

/-- The REC index of a payload row is `tx_k - 3` (R95). -/
theorem decode_txk_pay {s : State} {i : Byte} (hk : s.txK.toNat = i.toNat + 3) (hi : i.toNat < s.recLen) :
    decode s.rowCtx (.txk s.txK) = .instr (.txPay i) := by
  have hlt : s.txK.toNat < s.rowCtx.cfgLen.toNat + 3 := hk ▸ Nat.add_lt_add_right hi 3
  refine (decodeTxk_pay (by omega) hlt).trans ?_
  rw [hk, Nat.add_sub_cancel, BitVec.ofNat_toNat, BitVec.setWidth_eq]

/-- The running CRC over the first `n` record bytes, moved on by the next one (R30, R95). -/
theorem update_value_readRange (f : Checksum) (m : Memory) (n : Nat) :
    f.update (m.readRange 0 n) (f.value (m.readRange 0 n)) (m.read n) = f.value (m.readRange 0 (n + 1)) := by
  rw [update_value, Memory.readRange_succ, Nat.zero_add]

/-- Settles O30: the row at `tx_k` = i+3 is TX_PAY i, and the invariant says what the running CRC was before it. -/
theorem payloadByteSent : Obligations.PayloadByteSent := by
  intro s i hs hk hi
  obtain ⟨hd, hpush, hhold⟩ := txRow_pushes_or_holds hs (decode_txk_pay hk hi) rfl
  refine ⟨hd, fun hr => ⟨_, hpush hr, rfl, txK_succ_toNat (by omega), fun hfn => ?_, fun h => ?_⟩, hhold⟩
  · simp only [hfn, update_smbus]
  · have hcrc := h.sendCrc hs
    rw [hk, Nat.add_sub_cancel] at hcrc
    simp only [hcrc, update_value_readRange]

/-- Settles O31: the row at `tx_k` = N+3 is TX_CRC, and the invariant says what the running CRC is. -/
theorem checksumSent : Obligations.ChecksumSent := by
  intro s hs hk
  obtain ⟨hd, hpush, hhold⟩ := txRow_pushes_or_holds hs (decodeTxk_crc hk) rfl
  refine ⟨hd, fun hr => ⟨_, hpush hr, ?_, rfl⟩, hhold, fun h => ?_⟩
  · have hN : s.recLen < 256 := s.cfgLen.isLt
    have hlen : s.cfgLen.toNat = s.recLen := rfl
    simp only [sendDone, respond_txK, BitVec.toNat_add, BitVec.truncate_eq_setWidth, BitVec.toNat_setWidth,
      BitVec.toNat_ofNat]
    omega
  · have hcrc := h.sendCrc hs
    rwa [hk, Nat.add_sub_cancel] at hcrc

/-! ### What a SEND leaves alone (R97) -/

/-- `t` is `s` but for what SEND may write: the command's own registers, its fault or response, and a longer transmit
stream. -/
def SendWritesOnly (s t : State) : Prop :=
  ∃ bs, t = { s with
    busy := t.busy, curCmd := t.curCmd, txK := t.txK, txCrc := t.txCrc, faulted := t.faulted
    faultReason := t.faultReason, hostLog := t.hostLog, tx := s.tx ++ bs }

theorem SendWritesOnly.of_tx_eq {s t : State} (h : t = { s with
    busy := t.busy, curCmd := t.curCmd, txK := t.txK, txCrc := t.txCrc, faulted := t.faulted
    faultReason := t.faultReason, hostLog := t.hostLog }) : SendWritesOnly s t :=
  ⟨[], by rw [List.append_nil]; exact h⟩

/-- A transmit row changes what its push and the rest `u` of its micro-step change, or nothing (R91). -/
theorem sendWritesOnly_of_txRow {s t u : State} {i : Instr} {b : Byte} (hu : u = { s with
    busy := u.busy, txK := u.txK, txCrc := u.txCrc, hostLog := u.hostLog })
    (h : onRow i s (txPush b s u) = .next t) : SendWritesOnly s t := by
  obtain ⟨-, rfl⟩ | ⟨-, rfl⟩ := txPush_next (onRow_next h).2
  · exact .of_tx_eq rfl
  · exact ⟨[b], by rw [hu]⟩

/-- SEND is turned away, faults or starts (R90, R151, R152). -/
theorem sendWritesOnly_of_execSend {s t : State} (h : execSend s = .next t) : SendWritesOnly s t := by
  obtain ⟨-, ⟨-, rfl⟩ | ⟨-, hrun⟩⟩ := onAccept_next h
  · exact .of_tx_eq rfl
  · obtain ⟨-, rfl⟩ | ⟨-, hstart⟩ := onConfigured_next hrun
    · exact .of_tx_eq rfl
    · cases hstart
      exact .of_tx_eq rfl

/-- Settles O44: SEND and each of the five rows write only what `SendWritesOnly` names. -/
theorem sendLeavesReceiver : Obligations.SendLeavesReceiver := by
  intro s t i hi h
  have hw : SendWritesOnly s t := by
    rcases hi with rfl | hrow
    · exact sendWritesOnly_of_execSend h
    · rcases hrow with rfl | rfl | rfl | ⟨k, rfl⟩ | rfl <;> exact sendWritesOnly_of_txRow rfl h
  obtain ⟨bs, e⟩ := hw
  rw [e]
  exact ⟨rfl, rfl, rfl, rfl, rfl, rfl, rfl, rfl, rfl, rfl, rfl, rfl, bs, rfl⟩

/-! ### A SEND whose sink is not ready (R91, R183) -/

/-- Before its end a SEND whose sink is not ready holds (R91). -/
theorem blockStep_send_holds {s : State} (hs : Sending s) (hr : s.txReady = false) (hk : s.txK.toNat < s.frameLen) :
    blockStep s = .next s := by
  obtain ⟨t, ht, row⟩ := blockStep_send hs
  rw [ht]
  cases row with
  | hold => rfl
  | past hpast => exact absurd hk (Nat.not_lt.2 hpast)
  | _ => simp_all

/-- Settles O55: by induction on the number of steps, each of which holds. -/
theorem sendHoldsWithoutSink : Obligations.SendHoldsWithoutSink := by
  intro k s hs hr hk hu
  have hstep := (step_undisturbed hu hs.1).trans (blockStep_send_holds hs hr hk)
  induction k with
  | zero => rfl
  | succ k ih => exact (runSteps_succ hstep).trans ih

/-! ### The frame that a SEND emits (R66, R90, R98) -/

/-- The frame image that a SEND of `s` emits (R66). -/
def State.frame (s : State) : List Byte := frameOf s.crc8Fn s.cfgLen s.record

/-- `s` with the SEND in flight at `tx_k` = j, the first `j` bytes of the frame image pushed (R30, R90). -/
def State.sent (s : State) (j : Nat) : State :=
  { s with
    txK := BitVec.ofNat 9 j
    txCrc := s.crc8Fn.value (s.recMem.readRange 0 (j - 3))
    tx := s.tx ++ s.frame.take j }

/-- `t` is `s` with the SEND ended: its frame image pushed and its response given (R96). -/
def SendEnded (s t : State) : Prop :=
  t = { s with
    txK := t.txK, txCrc := t.txCrc, tx := s.tx ++ s.frame, busy := false, hostLog := s.hostLog ++ [.done] }

theorem getElem?_frame_pay {s : State} {j : Nat} (h3 : 3 ≤ j) (hj : j < s.recLen + 3) :
    s.frame[j]? = some (s.recMem.read (j - 3)) := by
  have hlen : s.record.length = s.recLen := Memory.length_readRange _ _ _
  have hi : j - 3 < s.record.length := by omega
  have hread := Memory.getElem_readRange s.recMem 0 s.recLen (j - 3) hi
  rw [Nat.zero_add] at hread
  rw [State.frame, getElem?_frameOf_payload _ _ _ h3 (by omega), List.getElem?_eq_getElem hi]
  exact congrArg some hread

/-- All of the frame image but its checksum has been pushed when `tx_k` is N+3 (R96). -/
theorem take_frame_append_crc (s : State) :
    s.frame.take (s.recLen + 3) ++ [s.crc8Fn.value s.record] = s.frame := by
  have hlen : s.record.length = s.recLen := Memory.length_readRange _ _ _
  simp [State.frame, frameOf, ← hlen]

/-- One more byte of the frame image is sent. -/
theorem sent_succ {s : State} {j : Nat} {b : Byte} (hb : s.frame[j]? = some b) :
    s.sent (j + 1) =
      { s.sent j with
        txK := BitVec.ofNat 9 (j + 1)
        txCrc := s.crc8Fn.value (s.recMem.readRange 0 (j + 1 - 3))
        tx := (s.sent j).tx ++ [b] } := by
  simp [State.sent, List.take_add_one, hb]

theorem sent_txK_toNat {s : State} {j : Nat} (hj : j ≤ s.recLen + 3) : (s.sent j).txK.toNat = j := by
  have hN : s.recLen < 256 := s.cfgLen.isLt
  simp only [State.sent, BitVec.toNat_ofNat]
  omega

section
variable {s : State} (hs : Sending s) (hr : s.txReady = true)
include hs hr

/-- Below N+3 the Block's micro-step sends the next byte of the frame image. -/
theorem blockStep_sent {j : Nat} (hj : j < s.recLen + 3) : blockStep (s.sent j) = .next (s.sent (j + 1)) := by
  have hk := sent_txK_toNat hj.le
  obtain ⟨t, ht, row⟩ := blockStep_send (s := s.sent j) hs
  rw [ht]
  cases row with
  | hold hr' => exact nomatch hr.symm.trans hr'
  | hdr1 _ h0 =>
    obtain rfl : j = 0 := hk.symm.trans h0
    exact congrArg _ (sent_succ rfl).symm
  | hdr2 _ h1 =>
    obtain rfl : j = 1 := hk.symm.trans h1
    exact congrArg _ (sent_succ rfl).symm
  | len _ h2 =>
    obtain rfl : j = 2 := hk.symm.trans h2
    exact congrArg _ (sent_succ rfl).symm
  | pay _ h3 =>
    rw [hk] at h3 ⊢
    rw [sent_succ (getElem?_frame_pay h3 hj), Nat.sub_add_comm h3, ← update_value_readRange, BitVec.ofNat_add]
    rfl
  | crc _ hcrc => exact absurd (hk.symm.trans hcrc) hj.ne
  | past hpast => exact absurd (hk ▸ hpast) hj.not_gt

/-- At N+3 the Block's micro-step sends the checksum and responds. -/
theorem blockStep_sent_crc : ∃ t, blockStep (s.sent (s.recLen + 3)) = .next t ∧ SendEnded s t := by
  obtain ⟨hd, hpush, -⟩ := checksumSent (s.sent (s.recLen + 3)) hs (sent_txK_toNat le_rfl)
  obtain ⟨t, ht, -, e⟩ := hpush hr
  refine ⟨t, (blockStep_row (fetched_sending (s := s.sent (s.recLen + 3)) hs) hd).trans ht, ?_⟩
  rw [SendEnded, ← take_frame_append_crc s, ← List.append_assoc, e]
  rfl

theorem runSteps_sent (hu : Undisturbed s) {j : Nat} (hj : j ≤ s.recLen + 3) :
    runSteps j (s.sent 0) = .next (s.sent j) := by
  induction j with
  | zero => rfl
  | succ j ih =>
    have hstep := (step_undisturbed (s := s.sent j) hu hs.1).trans (blockStep_sent hs hr hj)
    exact (runSteps_add (ih (by omega))).trans (runSteps_succ hstep)

/-- From its start a SEND takes N+4 steps to its end. -/
theorem runSteps_sendEnded (hu : Undisturbed s) :
    ∃ t, runSteps (s.recLen + 4) (s.sent 0) = .next t ∧ SendEnded s t := by
  obtain ⟨t, ht, hend⟩ := blockStep_sent_crc hs hr
  have hstep := (step_undisturbed (s := s.sent (s.recLen + 3)) hu hs.1).trans ht
  exact ⟨t, (runSteps_add (k := 1) (runSteps_sent hs hr hu le_rfl)).trans (runSteps_succ hstep), hend⟩

end

/-- An accepted SEND is in flight with no byte of its frame image sent (R90). -/
theorem exec_send_of_configured {s : State} (h : Accepting s) (hc : s.cfgValid = true) :
    exec .send s = .next ((accept .send s).sent 0) := by
  rw [(sendStarts s h hc).1]
  simp [State.sent, Memory.readRange, accept]

/-- Settles O49: one step accepts the SEND, and each further one sends a byte of the frame image. -/
theorem sendEmitsFrame : Obligations.SendEmitsFrame := by
  intro s rest h hc hr hs hu
  have hstep : step s = .next ((accept .send (s.withAgenda rest)).sent 0) :=
    (stepRunsDecodedCommand s _ rest .send h hs rfl).trans (exec_send_of_configured h hc)
  obtain ⟨t, hrun, hend⟩ := runSteps_sendEnded (s := accept .send (s.withAgenda rest)) ⟨rfl, rfl⟩ hr hu
  refine ⟨t, (runSteps_succ hstep).trans hrun, hend.trans ?_⟩
  simp only [← h.1]
  rfl

/-! ### A frame that a POLL receives (R69, R102-R109) -/

theorem rxPop_of_cons {s : State} {b : Byte} {rest : List Byte} (hrx : s.rx = b :: rest) :
    s.rxPop = { s with rx := rest } := by
  rw [State.rxPop, hrx, List.tail_cons]

/-- `s` at the start of PAY, with the bytes `rest` waiting (R106). -/
def State.inPay (s : State) (rest : List Byte) : State := { s with rx := rest, rxState := .pay, rxCursor := 0#9 }

/-- `s` in PAY with the payload bytes `bs` stored behind those it has, and the bytes `rest` waiting (R108). -/
def State.stored (s : State) (bs rest : List Byte) : State :=
  { s with
    scr := s.scr.writeRange s.rxCursor.toNat bs, rxCursor := s.rxCursor + BitVec.ofNat 9 bs.length, rx := rest }

section
variable {s : State} {b : Byte} {rest : List Byte} (hp : Polling s) (hu : Undisturbed s)
include hp hu

/-- With a byte waiting and no agent acting, a step is what stands behind the guard of the row that the byte selects. -/
theorem step_of_decode_rxd {i : Instr} {run : Result} (hrx : s.rx = b :: rest)
    (hd : decode s.rowCtx (.rxd (s.rxd b)) = .instr i) (he : exec i s = onRow i s run) : step s = run :=
  have hf := fetched_polling_cons hp hrx
  ((stepRunsDecodedRow s _ i hf hd).1 hu).trans (exec_of_decode hf hd he)

theorem step_h1Sync (hst : s.rxState = .h1) (hrx : s.rx = Config.hdr1 :: rest) :
    step s = .next { s with rx := rest, rxState := .h2 } := by
  have hd : decode s.rowCtx (.rxd (s.rxd Config.hdr1)) = .instr .rxH1Sync := by
    rw [decode_rxd, hst]
    exact if_pos rfl
  rw [step_of_decode_rxd hp hu hrx hd rfl, rxPop_of_cons hrx]

theorem step_h2Ok (hst : s.rxState = .h2) (hrx : s.rx = Config.hdr2 :: rest) :
    step s = .next { s with rx := rest, rxState := .len } := by
  have hd : decode s.rowCtx (.rxd (s.rxd Config.hdr2)) = .instr .rxH2Ok := by
    rw [decode_rxd, hst]
    exact if_pos rfl
  rw [step_of_decode_rxd hp hu hrx hd rfl, rxPop_of_cons hrx]

theorem step_lenOk (hst : s.rxState = .len) (hrx : s.rx = s.cfgLen :: rest) :
    step s = .next (s.inPay rest) := by
  have hd : decode s.rowCtx (.rxd (s.rxd s.cfgLen)) = .instr (.rxLenOk s.cfgLen) := by
    rw [decode_rxd, hst]
    exact if_pos rfl
  rw [step_of_decode_rxd hp hu hrx hd rfl, rxPop_of_cons hrx]
  rfl

/-- The three header bytes of a frame of the receiver's own record length lead from H1 to PAY (R102, R104, R106). -/
theorem runSteps_header (hst : s.rxState = .h1) (hrx : s.rx = [Config.hdr1, Config.hdr2, s.cfgLen] ++ rest) :
    runSteps 3 s = .next (s.inPay rest) :=
  calc runSteps 3 s
    _ = runSteps 2 { s with rx := [Config.hdr2, s.cfgLen] ++ rest, rxState := .h2 } :=
      runSteps_succ (step_h1Sync hp hu hst hrx)
    _ = runSteps 1 { s with rx := [s.cfgLen] ++ rest, rxState := .len } := runSteps_succ (step_h2Ok hp hu rfl rfl)
    _ = _ := runSteps_succ (step_lenOk hp hu rfl rfl)

theorem step_payStore (hst : s.rxState = .pay) (hc : s.rxCursor.toNat < s.recLen) (hrx : s.rx = b :: rest) :
    step s = .next (s.stored [b] rest) := by
  rw [step_undisturbed hu hp.1, blockStep_payStore hp hst hrx hc, rxPop_of_cons hrx]
  rfl

/-- A byte in PAY with the cursor at N ends the frame (R109). -/
theorem step_payLast (hst : s.rxState = .pay) (hc : s.rxCursor.toNat = s.recLen) (hrx : s.rx = b :: rest) :
    step s = .next (finishFrame (storeCrc b s)) := by
  have hd : decode s.rowCtx (.rxd (s.rxd b)) = .instr (.rxPayLast b) := by
    rw [decode_rxd, hst]
    exact (if_neg hc.not_lt).trans (if_pos hc)
  exact step_of_decode_rxd hp hu hrx hd rfl

end

/-- The bytes of a payload are stored one by one (R28, R108). -/
theorem runSteps_payStore {s : State} {bs rest : List Byte} (hp : Polling s) (hu : Undisturbed s)
    (hst : s.rxState = .pay) (hrx : s.rx = bs ++ rest) (hlen : s.rxCursor.toNat + bs.length ≤ s.recLen) :
    runSteps bs.length s = .next (s.stored bs rest) := by
  induction bs generalizing s with
  | nil =>
    obtain rfl : s.rx = rest := hrx
    simp [runSteps, State.stored, Memory.writeRange]
  | cons b bs ih =>
    simp only [List.length_cons] at hlen
    have hc : s.rxCursor.toNat < s.recLen := by omega
    have hnext := cursor_succ_toNat hc
    have hbound : (s.rxCursor + 1#9).toNat + bs.length ≤ s.recLen := by omega
    have hcursor : s.rxCursor + 1#9 + BitVec.ofNat 9 bs.length = s.rxCursor + BitVec.ofNat 9 (bs.length + 1) := by
      rw [BitVec.add_assoc, Nat.add_comm, BitVec.ofNat_add]
    have hstep : step s = .next (s.stored [b] (bs ++ rest)) := step_payStore hp hu hst hc hrx
    rw [List.length_cons, runSteps_succ hstep, ih (s := s.stored [b] (bs ++ rest)) hp hu hst rfl hbound]
    simp [State.stored, hnext, Memory.writeRange, hcursor]

/-- `s` in PAY with the payload `p` of a frame stored from its start on, and the bytes `rest` waiting (R28). -/
def State.filled (s : State) (p rest : List Byte) : State := (s.inPay rest).stored p rest

/-- `s` in which a POLL has received the frame of payload `p`, with the bytes `rest` waiting: the payload and its checksum
are in the scratch store, the payload is in REC, and the POLL has responded true (R109). -/
def State.received (s : State) (p rest : List Byte) : State :=
  { s with
    rx := rest, rxState := .h1, rxCursor := 0#9, busy := false
    scr := (s.scr.writeRange 0 p).write s.recLen (s.crc8Fn.value p)
    recMem := s.recMem.writeRange 0 p
    hostLog := s.hostLog ++ [.ok true] }

/-- A valid checksum byte ends the frame with the copy and the response true (R109). -/
theorem finishFrame_storeCrc_valid {s : State} {b : Byte} (hw : s.scr.wf = true) (hb : s.crc8Fn.value s.payload = b) :
    finishFrame (storeCrc b s) = { storeCrc b s with
      rxState := .h1, rxCursor := 0#9, busy := false, recMem := s.recMem.writeRange 0 s.payload
      hostLog := s.hostLog ++ [.ok true] } := by
  have hok : (storeCrc b s).frameOk = true := (frameOk_storeCrc hw b).trans (checksumOk_payload_iff.2 hb)
  rw [finishFrame, hok, if_pos rfl, copyToRec, payload_storeCrc]
  rfl

section
variable {s : State} {p : List Byte} (hlen : p.length = s.recLen)
include hlen

theorem filled_rxCursor_toNat (rest : List Byte) : (s.filled p rest).rxCursor.toNat = s.recLen := by
  have hN : s.recLen < 256 := s.cfgLen.isLt
  simp only [State.filled, State.stored, State.inPay, BitVec.zero_add, BitVec.toNat_ofNat, hlen]
  omega

theorem filled_payload (hw : s.scr.wf = true) (rest : List Byte) : (s.filled p rest).payload = p := by
  have hread := Memory.readRange_writeRange hw 0 p
  rwa [hlen] at hread

section
variable (hp : Polling s) (hu : Undisturbed s)
include hp hu

/-- The headers and the payload of a frame of the receiver's own record length fill the scratch store (R113). -/
theorem runSteps_filled {rest : List Byte} (hst : s.rxState = .h1)
    (hrx : s.rx = [Config.hdr1, Config.hdr2, s.cfgLen] ++ (p ++ rest)) :
    runSteps (3 + p.length) s = .next (s.filled p rest) := by
  have hbound : (s.inPay (p ++ rest)).rxCursor.toNat + p.length ≤ s.recLen := by
    rw [hlen]
    exact (Nat.zero_add _).le
  exact (runSteps_add (runSteps_header hp hu hst hrx)).trans
    (runSteps_payStore (s := s.inPay (p ++ rest)) hp hu rfl rfl hbound)

/-- The checksum of what fills the scratch store ends the frame (R109). -/
theorem step_filled (hw : s.scr.wf = true) (rest : List Byte) :
    step (s.filled p (s.crc8Fn.value p :: rest)) = .next (s.received p rest) := by
  have hpayload := filled_payload hlen hw (s.crc8Fn.value p :: rest)
  have hfinish := finishFrame_storeCrc_valid (s := s.filled p (s.crc8Fn.value p :: rest)) (Memory.wf_writeRange hw 0 p)
    (congrArg s.crc8Fn.value hpayload)
  rw [step_payLast (s := s.filled p _) hp hu rfl (filled_rxCursor_toNat hlen _) rfl, hfinish, hpayload]
  rfl

/-- A POLL in H1 that finds a valid frame of its own record length receives it in N+4 steps (R98, R113). -/
theorem runSteps_received {rest : List Byte} (hst : s.rxState = .h1) (hw : s.scr.wf = true)
    (hrx : s.rx = frameOf s.crc8Fn s.cfgLen p ++ rest) :
    runSteps (s.recLen + 4) s = .next (s.received p rest) := by
  have hrx' : s.rx = [Config.hdr1, Config.hdr2, s.cfgLen] ++ (p ++ s.crc8Fn.value p :: rest) := by
    rw [hrx, frameOf, List.append_assoc, List.append_assoc]
    rfl
  have hsteps : s.recLen + 4 = 3 + p.length + 1 := by omega
  rw [hsteps, runSteps_add (runSteps_filled hlen hp hu hst hrx')]
  exact runSteps_succ (step_filled hlen hp hu hw rest)

end

end

/-- An accepted POLL is in flight (R100). -/
theorem exec_poll_of_configured {s : State} (h : Accepting s) (hc : s.cfgValid = true) :
    exec .poll s = .next (accept .poll s) :=
  (onAccept_of_accepting h.1 h.2).trans (if_pos hc)

/-- A POLL presented to a Block in H1 receives the valid frame that waits, in N+5 steps (R98, R100). -/
theorem runSteps_poll_received {s : State} {p more : List Byte} {rest : List AgentMove} (h : Accepting s)
    (hc : s.cfgValid = true) (hw : s.scr.wf = true) (hst : s.rxState = .h1) (hlen : p.length = s.recLen)
    (hrx : s.rx = frameOf s.crc8Fn s.cfgLen p ++ more) (hs : s.schedule = .issue 0x300#10 :: rest)
    (hu : Undisturbed (s.withAgenda rest)) :
    runSteps (s.recLen + 5) s = .next ((accept .poll (s.withAgenda rest)).received p more) := by
  have hstep : step s = .next (accept .poll (s.withAgenda rest)) :=
    (stepRunsDecodedCommand s _ rest .poll h hs rfl).trans (exec_poll_of_configured h hc)
  rw [runSteps_succ hstep]
  exact runSteps_received (s := accept .poll (s.withAgenda rest)) hlen ⟨rfl, rfl⟩ hu hst hw hrx

/-- Settles O51: the sender's stream is the frame image of its record, and a POLL of the receiver receives that. -/
theorem linkRoundTrip : Obligations.LinkRoundTrip := by
  intro a b ra rb _ hb hacca haccb hca hcb hlen hfn hr hst htx hsa hsb hua hub
  obtain ⟨ta, hsend, e⟩ := sendEmitsFrame a ra hacca hca hr hsa hua
  have hrec : a.record.length = b.recLen := (Memory.length_readRange ..).trans (congrArg BitVec.toNat hlen)
  have hframe : ta.tx = frameOf b.crc8Fn b.cfgLen a.record ++ [] := by
    rw [e, List.append_nil, ← hlen, ← hfn, htx, List.nil_append]
  have hreceive := runSteps_poll_received (s := { b with rx := ta.tx }) haccb hcb hb.scrWf hst hrec hframe hsb hub
  have hcopy : (b.recMem.writeRange 0 a.record).readRange 0 b.recLen = a.record := by
    rw [← hrec, Memory.readRange_writeRange hb.recWf]
  exact ⟨ta, _, hsend, hreceive, hcopy, rfl, rfl, (congrArg State.faulted e).trans hacca.2, haccb.2⟩

end Sys2Proof.Machine
end


section
/-! SUPPORT. Proofs of the statements about the receive rows (42_receive.md): how a POLL starts, and what each row
does. -/

namespace Sys2Proof.Machine

/-- Settles O13: the acceptance and the configuration check both pass. -/
theorem pollStarts : Obligations.PollStarts := fun _ h hc => exec_poll_of_configured h hc

/-- Settles O18: an empty stream is the row RX_EMPTY in every receive state, and its guard passes. -/
theorem emptyStreamRespondsFalse : Obligations.EmptyStreamRespondsFalse := fun _ hp hrx =>
  ⟨rfl, exec_of_decode (fetched_polling_nil hp hrx) rfl rfl⟩

/-! ### The row of the first waiting byte, by the receive state (R69) -/

section
variable {s : State} {b : Byte}

theorem decode_rxd_h1 (hst : s.rxState = .h1) : decode s.rowCtx (.rxd (s.rxd b)) =
    if b = Config.hdr1 then .instr .rxH1Sync else .instr (.rxH1Skip b) := by
  rw [decode_rxd, hst]

theorem decode_rxd_h2 (hst : s.rxState = .h2) : decode s.rowCtx (.rxd (s.rxd b)) =
    if b = Config.hdr2 then .instr .rxH2Ok else .instr (.rxH2Bad b) := by
  rw [decode_rxd, hst]

theorem decode_rxd_len (hst : s.rxState = .len) : decode s.rowCtx (.rxd (s.rxd b)) =
    if b = s.cfgLen then .instr (.rxLenOk b) else .instr (.rxLenBad b) := by
  rw [decode_rxd, hst]

theorem decode_rxd_payStore (hst : s.rxState = .pay) (hc : s.rxCursor.toNat < s.recLen) :
    decode s.rowCtx (.rxd (s.rxd b)) = .instr (.rxPayStore b) := by
  rw [decode_rxd, hst]
  exact if_pos hc

theorem decode_rxd_payLast (hst : s.rxState = .pay) (hc : s.rxCursor.toNat = s.recLen) :
    decode s.rowCtx (.rxd (s.rxd b)) = .instr (.rxPayLast b) := by
  rw [decode_rxd, hst]
  exact (if_neg hc.not_lt).trans (if_pos hc)

end

/-- A receive row that pops the first waiting byte and then is in `f` of the rest does so where that byte selects
it. -/
theorem rxRow_pops {s : State} {b : Byte} {rest : List Byte} {i : Instr} {f : State → State} (hp : Polling s)
    (hrx : s.rx = b :: rest) (hd : decode s.rowCtx (.rxd (s.rxd b)) = .instr i)
    (he : exec i s = onRow i s (.next (f s.rxPop))) :
    decode s.rowCtx (.rxd (s.rxd b)) = .instr i ∧ exec i s = .next (f { s with rx := rest }) :=
  ⟨hd, rxPop_of_cons hrx ▸ exec_of_decode (fetched_polling_cons hp hrx) hd he⟩

/-! ### The header rows (R102-R107) -/

/-- Settles O19: in H1 the row of 0x06 is RX_H1_SYNC. -/
theorem header1Found : Obligations.Header1Found := by
  intro s rest hp hst hrx
  obtain ⟨hd, hexec⟩ := rxRow_pops (f := fun u => { u with rxState := .h2 }) hp hrx
    ((decode_rxd_h1 hst).trans (if_pos rfl)) rfl
  refine ⟨?_, hd, hexec, fun h => h.cursorZero (by simp [hst])⟩
  rw [State.rxd, hst]
  rfl

/-- In H1 the receive decode word has zeros in its high field (R24, R69). -/
theorem rxd_h1_and_mask {s : State} (b : Byte) (hst : s.rxState = .h1) : s.rxd b &&& 0x300#10 = 0x000#10 := by
  rw [State.rxd, hst]
  revert b
  decide

/-- Settles O20: in H1 the row of any other byte is RX_H1_SKIP. -/
theorem junkSkipped : Obligations.JunkSkipped := by
  intro s b rest hp hst hrx hb
  exact ⟨rxd_h1_and_mask b hst,
    rxRow_pops (f := id) hp hrx ((decode_rxd_h1 hst).trans (if_neg hb)) rfl⟩

/-- Settles O21: in H2 the row of 0x85 is RX_H2_OK. -/
theorem header2Found : Obligations.Header2Found := by
  intro s rest hp hst hrx
  obtain ⟨hd, hexec⟩ := rxRow_pops (f := fun u => { u with rxState := .len }) hp hrx
    ((decode_rxd_h2 hst).trans (if_pos rfl)) rfl
  refine ⟨?_, hd, hexec, fun h => h.cursorZero (by simp [hst])⟩
  rw [State.rxd, hst]
  rfl

/-- Settles O22: in H2 the row of any other byte is RX_H2_BAD. -/
theorem badHeader2Resynchronises : Obligations.BadHeader2Resynchronises := fun _ _ _ hp hst hrx hb =>
  rxRow_pops (f := fun u => respond (.ok false) (toH1 u)) hp hrx ((decode_rxd_h2 hst).trans (if_neg hb)) rfl

/-- In LEN the receive decode word is 0b10 before the byte (R24, R69). -/
theorem rxd_len {s : State} (b : Byte) (hst : s.rxState = .len) : s.rxd b = 0x200#10 ||| b.zeroExtend 10 := by
  rw [State.rxd, hst]
  revert b
  decide

/-- Settles O23: in LEN the row of the byte `cfg_len` is RX_LEN_OK. -/
theorem lengthAccepted : Obligations.LengthAccepted := by
  intro s rest hp hst hrx
  obtain ⟨hd, hexec⟩ := rxRow_pops (f := fun u => { u with rxState := .pay, rxCursor := 0#9 }) hp hrx
    ((decode_rxd_len hst).trans (if_pos rfl)) rfl
  exact ⟨rxd_len _ hst, hd, hexec, fun h => h.configured (h.busyConfigured hp.1)⟩

/-- Settles O24: in LEN the row of any other byte is RX_LEN_BAD. -/
theorem badLengthResynchronises : Obligations.BadLengthResynchronises := fun _ _ _ hp hst hrx hb =>
  rxRow_pops (f := fun u => respond (.ok false) (toH1 u)) hp hrx ((decode_rxd_len hst).trans (if_neg hb)) rfl

/-! ### The payload rows (R108, R109) -/

/-- Settles O25: with the cursor below N the row is RX_PAY_STORE, one write to the scratch store. -/
theorem payloadByteStored : Obligations.PayloadByteStored := by
  intro s b rest hp hst hrx hc hw
  obtain ⟨hd, hexec⟩ := rxRow_pops
    (f := fun u => { u with scr := s.scr.write s.rxCursor.toNat b, rxCursor := s.rxCursor + 1#9 }) hp hrx
    (decode_rxd_payStore hst hc) rfl
  have hnext := cursor_succ_toNat hc
  exact ⟨hd, _, hexec, rfl, hnext, hnext.trans_le hc, Memory.read_write_same hw _ b,
    fun a ha => Memory.read_write_other s.scr b ha.symm⟩

/-- An invalid checksum byte ends the frame with the response false and no copy (R109). -/
theorem finishFrame_storeCrc_invalid {s : State} {b : Byte} (hw : s.scr.wf = true) (hb : s.crc8Fn.value s.payload ≠ b) :
    finishFrame (storeCrc b s) = respond (.ok false) (toH1 (storeCrc b s)) := by
  have hok : (storeCrc b s).frameOk = false :=
    (frameOk_storeCrc hw b).trans (Bool.eq_false_iff.2 (mt checksumOk_payload_iff.1 hb))
  rw [finishFrame, hok]
  rfl

/-- What RX_PAY_LAST leaves, by whether the checksum of the payload is the byte that arrived (R109). -/
theorem finishFrame_storeCrc {s : State} {b : Byte} {rest : List Byte} (hw : s.scr.wf = true) (hrx : s.rx = b :: rest) :
    finishFrame (storeCrc b s) = { s with
      rx := rest, scr := s.scr.write s.recLen b, rxState := .h1, rxCursor := 0#9, busy := false
      recMem := if s.crc8Fn.value s.payload = b then s.recMem.writeRange 0 s.payload else s.recMem
      hostLog := s.hostLog ++ [.ok (decide (s.crc8Fn.value s.payload = b))] } := by
  by_cases hb : s.crc8Fn.value s.payload = b
  · rw [finishFrame_storeCrc_valid hw hb, storeCrc, rxPop_of_cons hrx, if_pos hb, decide_eq_true hb]
  · rw [finishFrame_storeCrc_invalid hw hb, storeCrc, rxPop_of_cons hrx, if_neg hb, decide_eq_false hb]
    rfl

/-- A copied payload reads from REC as it stood in the scratch store (R57, R109). -/
theorem read_writeRange_payload {s : State} (hw : s.recMem.wf = true) {a : Nat} (ha : a < s.recLen) :
    (s.recMem.writeRange 0 s.payload).read a = s.scr.read a := by
  have hin : a < s.payload.length := by rwa [State.payload, Memory.length_readRange]
  have hcopy := Memory.read_writeRange_inside hw 0 s.payload a hin
  have hread := Memory.getElem_readRange s.scr 0 s.recLen a hin
  rw [Nat.zero_add] at hcopy hread
  exact hcopy.trans hread

/-- A copied payload leaves REC from index N on as it was. -/
theorem read_writeRange_payload_of_le (s : State) {a : Nat} (ha : s.recLen ≤ a) :
    (s.recMem.writeRange 0 s.payload).read a = s.recMem.read a := by
  refine Memory.read_writeRange_outside _ _ (.inr ?_)
  rwa [State.payload, Memory.length_readRange, Nat.zero_add]

/-- Settles O26: with the cursor at N the row is RX_PAY_LAST, whose copy is a range write of the payload. -/
theorem frameCompleted : Obligations.FrameCompleted := by
  intro s b rest hp hst hrx hc hw hrec
  have hd := decode_rxd_payLast (b := b) hst hc
  have hexec : exec (.rxPayLast b) s = .next (finishFrame (storeCrc b s)) :=
    exec_of_decode (fetched_polling_cons hp hrx) hd rfl
  rw [finishFrame_storeCrc hw hrx] at hexec
  refine ⟨hd, _, _, hexec, rfl, rfl, Memory.read_write_same hw _ b,
    fun a ha => Memory.read_write_other s.scr b ha.symm, fun hok a ha => ?_, fun hok a ha => ?_,
    fun hok => if_neg (of_decide_eq_false hok)⟩
  · have hvalid : s.crc8Fn.value s.payload = b := of_decide_eq_true hok
    simp only [if_pos hvalid, read_writeRange_payload hrec ha]
  · have hvalid : s.crc8Fn.value s.payload = b := of_decide_eq_true hok
    simp only [if_pos hvalid, read_writeRange_payload_of_le s ha]

end Sys2Proof.Machine
end

section
/-! SUPPORT. Proofs of the statements about whole POLLs and the receive stream (R110-R117). -/

namespace Sys2Proof.Machine

/-! ### A POLL's micro-step on a byte is the row of the summary (R113) -/

/-- After a POLL's micro-step from `s` to `t`, the POLL is as the outcome column of the summary has it. -/
def ShowsOutcome (s t : State) : Option Bool → Prop
  | none => Polling t ∧ t.hostLog = s.hostLog
  | some v => t.busy = false ∧ t.hostLog = s.hostLog ++ [.ok v]

/-- The step from `s` to `t` is the summary's row on the first waiting byte `b`, with `rest` behind it. -/
structure FollowsSummary (s t : State) (b : Byte) (rest : List Byte) : Prop where
  receiver : t.receiver = rxStep s.crc8Fn s.recLen s.receiver b
  outcome : ShowsOutcome s t (rxOutcome s.crc8Fn s.recLen s.receiver b)
  rx : t.rx = rest
  tx : t.tx = s.tx

/-- A row of the summary, with its response if it has one, and what the micro-step shows of it. -/
theorem FollowsSummary.of_row {s t : State} {b : Byte} {rest : List Byte} (o : Option Bool) (ho : ShowsOutcome s t o)
    (hrx : t.rx = rest) (htx : t.tx = s.tx)
    (hrow : rxStep s.crc8Fn s.recLen s.receiver b = t.receiver ∧ rxOutcome s.crc8Fn s.recLen s.receiver b = o) :
    FollowsSummary s t b rest :=
  ⟨hrow.1.symm, hrow.2 ▸ ho, hrx, htx⟩

theorem PollRow.followsSummary {s t : State} {b : Byte} {rest : List Byte} (h : Coherent s) (hp : Polling s)
    (hrx : s.rx = b :: rest) (row : PollRow s t) : FollowsSummary s t b rest := by
  have hpop : s.rx.tail = rest := by rw [hrx, List.tail_cons]
  have hz := h.cursorZero
  cases row with
  | empty hrx' => exact nomatch hrx.symm.trans hrx'
  | h1Sync hst hrx' hb =>
    cases hrx.symm.trans hrx'
    refine .of_row none ⟨hp, rfl⟩ hpop rfl ?_
    simp [rxStep, rxOutcome, State.receiver, hst, hz, hb, Config.hdr1]
  | h1Skip hst hrx' hb =>
    cases hrx.symm.trans hrx'
    replace hb : b ≠ 0x06#8 := hb
    refine .of_row none ⟨hp, rfl⟩ hpop rfl ?_
    simp [rxStep, rxOutcome, State.receiver, hst, hz, hb]
  | h2Ok hst hrx' hb =>
    cases hrx.symm.trans hrx'
    refine .of_row none ⟨hp, rfl⟩ hpop rfl ?_
    simp [rxStep, rxOutcome, State.receiver, hst, hz, hb, Config.hdr2]
  | h2Bad hst hrx' hb =>
    cases hrx.symm.trans hrx'
    replace hb : b ≠ 0x85#8 := hb
    refine .of_row (some false) ⟨rfl, rfl⟩ hpop rfl ?_
    simp [rxStep, rxOutcome, State.receiver, hst, hb]
  | lenOk hst hrx' hb =>
    cases hrx.symm.trans hrx'
    have hlen : b.toNat = s.recLen := congrArg BitVec.toNat hb
    refine .of_row none ⟨hp, rfl⟩ hpop rfl ?_
    simp [rxStep, rxOutcome, State.receiver, hst, hlen]
  | lenBad hst hrx' hb =>
    cases hrx.symm.trans hrx'
    have hlen : b.toNat ≠ s.recLen := mt BitVec.eq_of_toNat_eq hb
    refine .of_row (some false) ⟨rfl, rfl⟩ hpop rfl ?_
    simp [rxStep, rxOutcome, State.receiver, hst, hlen]
  | payStore hst hrx' hc =>
    cases hrx.symm.trans hrx'
    refine .of_row none ⟨hp, rfl⟩ hpop rfl ?_
    simp [rxStep, rxOutcome, State.receiver, hst, hc, cursor_succ_toNat hc]
  | payLast hst hrx' hc =>
    cases hrx.symm.trans hrx'
    rw [finishFrame_storeCrc h.scrWf hrx]
    refine .of_row (some (decide (s.crc8Fn.value s.payload = b))) ⟨rfl, rfl⟩ rfl rfl ?_
    by_cases hv : s.crc8Fn.value (s.scr.readRange 0 s.recLen) = b <;>
      simp [rxStep, rxOutcome, State.receiver, State.payload, hst, hc, hv]

/-- Settles O46: the micro-step is one of the nine rows, and each of those that find a byte is a row of the summary. -/
theorem byteStepIsSummary : Obligations.ByteStepIsSummary := by
  intro s t b rest h hp hrx hstep
  obtain ⟨u, hu, row⟩ := blockStep_poll hp fun _ _ => h.cursorBound
  cases hu.symm.trans hstep
  obtain ⟨hr, hout, hrest, htx⟩ := row.followsSummary h hp hrx
  exact ⟨hr, hout, hrest, htx, row.sameConfig.cfgLen⟩

/-! ### Which agents act: no step adds an action -/

/-- The agents' steps still to come are in `t` as they are in `s`. -/
def SameSchedule (s t : State) : Prop := t.agenda = s.agenda ∧ t.cycle = s.cycle

theorem PollRow.sameSchedule {s t : State} (row : PollRow s t) : SameSchedule s t := by
  cases row with
  | payLast => constructor <;> simp
  | _ => exact ⟨rfl, rfl⟩

theorem SendRow.sameSchedule {s t : State} (row : SendRow s t) : SameSchedule s t := by
  cases row <;> exact ⟨rfl, rfl⟩

theorem BlockCase.sameSchedule {s t : State} (hc : BlockCase s t) : SameSchedule s t := by
  cases hc with
  | idle => exact ⟨rfl, rfl⟩
  | poll _ row => exact row.sameSchedule
  | send _ row => exact row.sameSchedule

theorem CommandCase.sameSchedule {w : Word10} {s t : State} (hc : CommandCase w s t) : SameSchedule s t := by
  cases hc <;> exact ⟨rfl, rfl⟩

theorem sameSchedule_hwResetInCopy (s : State) : SameSchedule s (hwResetInCopy s) := by
  rcases hwResetInCopy_cases s with e | ⟨b, rest, -, -, -, e⟩ <;> rw [e] <;> exact ⟨rfl, rfl⟩

theorem AgentCase.sameSchedule {s t : State} {a : AgentMove} (hc : AgentCase s a t) : SameSchedule s t := by
  cases hc with
  | issue _ hw => exact hw.sameSchedule
  | block hb => exact hb.sameSchedule
  | hwResetInCopy => exact sameSchedule_hwResetInCopy s
  | _ => exact ⟨rfl, rfl⟩

/-- Every action of the schedule stands in the agenda or in the cycle. -/
theorem schedule_subset (s : State) : s.schedule ⊆ s.agenda ++ s.cycle :=
  schedule_mem (fun _ => List.mem_append_left _) fun _ => List.mem_append_right _

/-- A property of all the actions still to come holds of those that come after a step. -/
theorem step_keeps_actions {P : AgentMove → Prop} {s t : State} (hP : ∀ a ∈ s.agenda ++ s.cycle, P a)
    (hstep : step s = .next t) : ∀ a ∈ t.agenda ++ t.cycle, P a := by
  cases step_next hstep with
  | block _ hb =>
    obtain ⟨ha, hc⟩ := hb.sameSchedule
    rwa [ha, hc]
  | @action a rest _ hs hact =>
    obtain ⟨ha, hc⟩ := hact.sameSchedule
    rw [ha, hc]
    intro x hx
    rcases List.mem_append.1 hx with hx | hx
    · exact hP x (schedule_subset s (hs ▸ List.mem_cons_of_mem a hx))
    · exact hP x (List.mem_append_right _ hx)

/-! ### Every run parses the bytes that arrive (R110, R117) -/

/-- From `s` to `t` the bytes `bs` arrived, and of the bytes that waited or arrived the receiver has parsed the
first ones while the others wait. -/
structure Parses (s t : State) (bs : List Byte) : Prop where
  crc8Fn : t.crc8Fn = s.crc8Fn
  recLen : t.recLen = s.recLen
  bytes : ∃ eaten, s.rx ++ bs = eaten ++ t.rx ∧ t.receiver = parse s.crc8Fn s.recLen s.receiver eaten

/-- What consumes no byte and leaves the receiver as it was. -/
theorem Parses.of_receiver_eq {s t : State} {bs : List Byte} (hcfg : SameConfig s t) (hr : t.receiver = s.receiver)
    (hrx : t.rx = s.rx ++ bs) : Parses s t bs :=
  ⟨hcfg.crc8Fn, congrArg BitVec.toNat hcfg.cfgLen, [], hrx.symm, hr⟩

theorem Parses.trans {s t u : State} {bs cs : List Byte} (h : Parses s t bs) (h' : Parses t u cs) :
    Parses s u (bs ++ cs) := by
  obtain ⟨hf, hn, xs, hxs, hr⟩ := h
  obtain ⟨hf', hn', ys, hys, hr'⟩ := h'
  refine ⟨hf'.trans hf, hn'.trans hn, xs ++ ys, ?_, ?_⟩
  · rw [← List.append_assoc, hxs, List.append_assoc, hys, List.append_assoc]
  · rw [hr', hf, hn, hr, parse, parse, parse, List.foldl_append]

theorem PollRow.parses {s t : State} (h : Coherent s) (hp : Polling s) (row : PollRow s t) : Parses s t [] := by
  have hcfg := row.sameConfig
  cases hrx : s.rx with
  | nil =>
    cases row with
    | empty => exact .of_receiver_eq hcfg (by simp [State.receiver]) (List.append_nil _).symm
    | _ => simp_all
  | cons b rest =>
    have hsum := row.followsSummary h hp hrx
    have hbytes : s.rx ++ [] = [b] ++ t.rx := by rw [hrx, hsum.rx, List.append_nil, List.singleton_append]
    exact ⟨hcfg.crc8Fn, congrArg BitVec.toNat hcfg.cfgLen, [b], hbytes, hsum.receiver⟩

/-- A SEND has nothing to do with the receiver (R97). -/
theorem SendRow.receiver_eq {s t : State} (row : SendRow s t) : t.receiver = s.receiver ∧ t.rx = s.rx := by
  cases row <;> simp [State.receiver, sendDone]

theorem BlockCase.parses {s t : State} (h : Coherent s) (hc : BlockCase s t) : Parses s t [] := by
  cases hc with
  | idle => exact .of_receiver_eq ⟨rfl, rfl, rfl⟩ rfl (List.append_nil _).symm
  | poll hp row => exact row.parses h hp
  | send _ row =>
    obtain ⟨hr, hrx⟩ := row.receiver_eq
    exact .of_receiver_eq row.sameConfig hr (by rw [hrx, List.append_nil])

/-- Of the commands only BEGIN writes the receiver (R80, R90, R100). -/
theorem CommandCase.parses {w : Word10} {s t : State} (hw : hiField w ≠ 0b01#2) (hc : CommandCase w s t) :
    Parses s t [] := by
  cases hc with
  | begin _ _ hd => exact absurd (decodeCmd_begin hd).1 hw
  | _ => exact .of_receiver_eq ⟨rfl, rfl, rfl⟩ rfl (List.append_nil _).symm

/-- The bytes that an action appends to the receive stream (R42). -/
def AgentMove.appended : AgentMove → List Byte
  | .rxAppend bs => bs
  | _ => []

theorem arriving_of_schedule_cons {s : State} {a : AgentMove} {rest : List AgentMove} (hs : s.schedule = a :: rest) :
    s.arriving = a.appended := by
  unfold State.arriving
  rw [hs]
  cases a <;> rfl

/-- A step that is the Block's own appends nothing. -/
theorem arriving_of_waiting {s : State}
    (h : s.schedule = [] ∨ ∃ a rest, s.schedule = a :: rest ∧ a.waits = true ∧ s.busy = true) : s.arriving = [] := by
  rcases h with hs | ⟨a, rest, hs, hw, -⟩
  · rw [State.arriving, hs]
  · rw [arriving_of_schedule_cons hs]
    cases a with
    | rxAppend => cases hw
    | _ => rfl

theorem AgentCase.parses {s t : State} {a : AgentMove} (h : Coherent s) (ha : a.leavesReceiver = true)
    (hc : AgentCase s a t) : Parses s t a.appended := by
  cases hc with
  | issue _ hw => exact hw.parses (by simpa [AgentMove.leavesReceiver] using ha)
  | hostRead => exact .of_receiver_eq ⟨rfl, rfl, rfl⟩ (by simp [State.receiver]) (List.append_nil _).symm
  | rxAppend => exact .of_receiver_eq ⟨rfl, rfl, rfl⟩ rfl rfl
  | block hb => exact hb.parses h
  | hazardWrite => cases ha
  | hostWrite => cases ha
  | hwReset => cases ha
  | hwResetInCopy => cases ha
  | _ => exact .of_receiver_eq ⟨rfl, rfl, rfl⟩ rfl (List.append_nil _).symm

theorem step_parses {s t : State} (h : Coherent s) (hacts : ∀ a ∈ s.agenda ++ s.cycle, a.leavesReceiver = true)
    (hstep : step s = .next t) : Parses s t s.arriving := by
  cases step_next hstep with
  | block hwait hb => exact arriving_of_waiting hwait ▸ hb.parses h
  | @action a rest _ hs hact =>
    have hleaves := hacts a (schedule_subset s (hs ▸ List.mem_cons_self))
    obtain ⟨hf, hn, hbytes⟩ := hact.parses (h.withAgenda rest) hleaves
    rw [arriving_of_schedule_cons hs]
    exact ⟨hf, hn, hbytes⟩

/-- A run that answers begins with a step that answers. -/
theorem step_of_runSteps_succ {k : Nat} {s t : State} (h : runSteps (k + 1) s = .next t) :
    ∃ u, step s = .next u ∧ runSteps k u = .next t := by
  cases hs : step s with
  | next u => exact ⟨u, rfl, (runSteps_succ hs).symm.trans h⟩
  | fault r => simp [runSteps, hs] at h
  | refused r => simp [runSteps, hs] at h

theorem arrived_succ {s u : State} (k : Nat) (h : step s = .next u) :
    arrived (k + 1) s = s.arriving ++ arrived k u := by
  simp [arrived, h]

theorem runSteps_parses {k : Nat} {s t : State} (h : Coherent s)
    (hacts : ∀ a ∈ s.agenda ++ s.cycle, a.leavesReceiver = true) (hrun : runSteps k s = .next t) :
    Parses s t (arrived k s) := by
  induction k generalizing s with
  | zero =>
    cases hrun
    exact .of_receiver_eq ⟨rfl, rfl, rfl⟩ rfl (List.append_nil _).symm
  | succ k ih =>
    obtain ⟨u, hstep, hrun'⟩ := step_of_runSteps_succ hrun
    have hrest := ih (stepKeepsInvariant s u h hstep) (step_keeps_actions hacts hstep) hrun'
    exact arrived_succ k hstep ▸ (step_parses h hacts hstep).trans hrest

/-- Settles O47: by induction on the run, each step of which parses a part of the stream. -/
theorem parseDecidedByBytesAlone : Obligations.ParseDecidedByBytesAlone := by
  intro k s t h hacts hrun
  obtain ⟨-, hn, hbytes⟩ := runSteps_parses h hacts hrun
  exact ⟨hn, hbytes⟩

/-! ### Whole POLLs on a stream that is known (R103, R109, R114, R115) -/

/-- A POLL presented to an idle, configured Block is accepted in one step (R100). -/
theorem step_issue_poll {s : State} {rest : List AgentMove} (h : Accepting s) (hc : s.cfgValid = true)
    (hs : s.schedule = .issue 0x300#10 :: rest) : step s = .next (accept .poll (s.withAgenda rest)) :=
  (stepRunsDecodedCommand s _ rest .poll h hs rfl).trans (exec_poll_of_configured h hc)

section
variable {s : State} (hp : Polling s) (hu : Undisturbed s)
include hp hu

theorem step_h1Skip {b : Byte} {rest : List Byte} (hst : s.rxState = .h1) (hrx : s.rx = b :: rest) (hb : b ≠ 0x06#8) :
    step s = .next { s with rx := rest } := by
  obtain ⟨-, hd, hexec⟩ := junkSkipped s b rest hp hst hrx hb
  exact ((stepRunsDecodedRow s _ _ (fetched_polling_cons hp hrx) hd).1 hu).trans hexec

/-- In H1 a POLL discards bytes without a 0x06 among them, one in each step (R103). -/
theorem runSteps_skip {junk rest : List Byte} (hst : s.rxState = .h1) (hrx : s.rx = junk ++ rest)
    (hjunk : 0x06#8 ∉ junk) : runSteps junk.length s = .next { s with rx := rest } := by
  induction junk generalizing s with
  | nil =>
    obtain rfl : s.rx = rest := hrx
    rfl
  | cons b junk ih =>
    obtain ⟨hb, hrest⟩ := List.ne_and_not_mem_of_not_mem_cons hjunk
    have hstep : step s = .next { s with rx := junk ++ rest } := step_h1Skip hp hu hst hrx hb.symm
    exact (runSteps_succ hstep).trans (ih (s := { s with rx := junk ++ rest }) hp hu hst rfl hrest)

/-- A POLL in H1 receives a valid frame of its own record length behind any junk without a 0x06 (R114, R176). -/
theorem runSteps_junk_received {junk p rest : List Byte} (hlen : p.length = s.recLen) (hst : s.rxState = .h1)
    (hw : s.scr.wf = true) (hjunk : 0x06#8 ∉ junk) (hrx : s.rx = junk ++ (frameOf s.crc8Fn s.cfgLen p ++ rest)) :
    runSteps (junk.length + (s.recLen + 4)) s = .next (s.received p rest) :=
  (runSteps_add (runSteps_skip hp hu hst hrx hjunk)).trans
    (runSteps_received (s := { s with rx := frameOf s.crc8Fn s.cfgLen p ++ rest }) hlen hp hu hst hw rfl)

end

/-- Settles O50: one step accepts the POLL, the junk is discarded, and the frame behind it is received. -/
theorem validFrameReceived : Obligations.ValidFrameReceived := by
  intro s junk payload more rest h hacc hc hst hjunk hlen hrx hs hu
  have hrun := runSteps_junk_received (s := accept .poll (s.withAgenda rest)) ⟨rfl, rfl⟩ hu hlen hst h.scrWf hjunk
    (hrx.trans (List.append_assoc _ _ _))
  have hcopy := Memory.readRange_writeRange h.recWf 0 payload
  have hbeyond {a : Nat} (ha : s.recLen ≤ a) : (s.recMem.writeRange 0 payload).read a = s.recMem.read a :=
    Memory.read_writeRange_outside _ _ (.inr (by rwa [hlen, Nat.zero_add]))
  rw [hlen] at hcopy
  refine ⟨_, (runSteps_succ (step_issue_poll hacc hc hs)).trans hrun, hcopy, fun _ => hbeyond, ?_⟩
  simp only [hst, h.cursorZero (by simp [hst]), hacc.1]
  rfl

/-- A change of one byte changes the default CRC8 (R142 item 4). -/
theorem crc8_ne_of_changed_byte (before after : List Byte) {b c : Byte} (hbc : b ≠ c) :
    crc8 (before ++ c :: after) ≠ crc8 (before ++ b :: after) := by
  simp only [crc8, List.foldl_append, List.foldl_cons]
  exact fun e => hbc (crc8Update_right_injective (foldl_crc8Update_injective after e)).symm

/-- A POLL in H1 that finds a frame of its own record length whose last byte is not the payload's checksum rejects it in
N+4 steps (R109, R115). -/
theorem runSteps_rejected {s : State} {p rest : List Byte} {crc : Byte} (hlen : p.length = s.recLen) (hp : Polling s)
    (hu : Undisturbed s) (hst : s.rxState = .h1) (hw : s.scr.wf = true) (hcrc : s.crc8Fn.value p ≠ crc)
    (hrx : s.rx = [Config.hdr1, Config.hdr2, s.cfgLen] ++ (p ++ crc :: rest)) :
    runSteps (s.recLen + 4) s = .next (respond (.ok false) (toH1 (storeCrc crc (s.filled p (crc :: rest))))) := by
  have hlast := step_payLast (s := s.filled p (crc :: rest)) hp hu rfl (filled_rxCursor_toNat hlen _) rfl
  have hinvalid : (s.filled p (crc :: rest)).crc8Fn.value (s.filled p (crc :: rest)).payload ≠ crc := by
    rwa [filled_payload hlen hw]
  rw [finishFrame_storeCrc_invalid (Memory.wf_writeRange hw 0 p) hinvalid] at hlast
  have hsteps : s.recLen + 4 = 3 + p.length + 1 := by omega
  rw [hsteps, runSteps_add (runSteps_filled hlen hp hu hst hrx)]
  exact runSteps_succ hlast

/-- Settles O52: the checksum of the changed payload is another byte, so the frame is rejected. -/
theorem changedPayloadByteRejected : Obligations.ChangedPayloadByteRejected := by
  intro s before after b c rest h hacc hc hst hfn hbc hlen hrx hs hu
  have hp : (before ++ c :: after).length = s.recLen := by
    rw [← hlen, List.length_append, List.length_cons, Nat.add_assoc]
  have hcrc : s.crc8Fn.value (before ++ c :: after) ≠ crc8 (before ++ b :: after) :=
    hfn ▸ crc8_ne_of_changed_byte before after hbc
  have hrun := runSteps_rejected (s := accept .poll (s.withAgenda rest)) (rest := []) hp ⟨rfl, rfl⟩ hu hst h.scrWf hcrc
    (hrx.trans (List.append_assoc _ _ _))
  exact ⟨_, (runSteps_succ (step_issue_poll hacc hc hs)).trans hrun, rfl, rfl, rfl, rfl, rfl⟩

/-! ### How long a POLL can take (R112, R182) -/

/-- How many bytes the frame attempt can still take before the POLL responds, outside H1: N+3 before the second header
byte, and the rest of the payload and the checksum in PAY. -/
def State.bytesLeft (s : State) : Nat :=
  match s.rxState with
  | .h1 => s.recLen + 4
  | .h2 => s.recLen + 3
  | .len => s.recLen + 2
  | .pay => s.recLen + 1 - s.rxCursor.toNat

theorem bytesLeft_le {s : State} (hst : s.rxState ≠ .h1) : s.bytesLeft ≤ s.recLen + 3 := by
  unfold State.bytesLeft
  split
  · exact absurd ‹_› hst
  all_goals omega

/-- A row that takes a byte ends the POLL, or goes on with fewer bytes to take; outside H1 it does not go back there. -/
theorem PollRow.ends_or_continues {s t : State} {b : Byte} {rest : List Byte} (h : Coherent s) (hp : Polling s)
    (hrx : s.rx = b :: rest) (row : PollRow s t) :
    t.busy = false ∧ 1 ≤ s.bytesLeft ∨
      Polling t ∧ (s.rxState ≠ .h1 → t.rxState ≠ .h1 ∧ t.bytesLeft + 1 ≤ s.bytesLeft) := by
  have hbound := h.cursorBound
  cases row with
  | empty hrx' => exact nomatch hrx.symm.trans hrx'
  | h1Sync hst => exact .inr ⟨hp, fun hne => absurd hst hne⟩
  | h1Skip hst => exact .inr ⟨hp, fun hne => absurd hst hne⟩
  | h2Ok hst => exact .inr ⟨hp, fun _ => ⟨nofun, by simp [State.bytesLeft, State.recLen, hst]⟩⟩
  | h2Bad hst => exact .inl ⟨rfl, by simp [State.bytesLeft, hst]⟩
  | lenOk hst => exact .inr ⟨hp, fun _ => ⟨nofun, by simp [State.bytesLeft, State.recLen, hst]⟩⟩
  | lenBad hst => exact .inl ⟨rfl, by simp [State.bytesLeft, hst]⟩
  | payStore hst _ hc =>
    refine .inr ⟨hp, fun _ => ⟨by simp [hst], ?_⟩⟩
    have hnext := cursor_succ_toNat hc
    have hless : s.recLen + 1 - (s.rxCursor.toNat + 1) + 1 ≤ s.recLen + 1 - s.rxCursor.toNat := by omega
    simp only [State.bytesLeft, hst, rxPop_rxState, hnext]
    exact hless
  | payLast hst =>
    refine .inl ⟨rfl, ?_⟩
    simp only [State.bytesLeft, hst]
    omega

theorem SameSchedule.undisturbed {s t : State} (h : SameSchedule s t) (hu : Undisturbed s) : Undisturbed t := by
  have hs : t.schedule = s.schedule := by
    unfold State.schedule
    rw [h.1, h.2]
  unfold Undisturbed
  rwa [hs]

/-- A POLL that no agent disturbs ends within one step more than the bytes waiting. -/
theorem poll_ends {s : State} {bs : List Byte} (h : Coherent s) (hp : Polling s) (hu : Undisturbed s)
    (hrx : s.rx = bs) :
    ∃ k t eaten, k ≤ bs.length + 1 ∧ runSteps k s = .next t ∧ t.busy = false ∧ bs = eaten ++ t.rx ∧
      (s.rxState ≠ .h1 → eaten.length ≤ s.bytesLeft) := by
  induction bs generalizing s with
  | nil =>
    obtain ⟨u, hblock, row⟩ := blockStep_poll hp fun _ _ => h.cursorBound
    have hstep := (step_undisturbed hu hp.1).trans hblock
    cases row with
    | empty => exact ⟨1, _, [], le_rfl, runSteps_succ hstep, rfl, hrx.symm, fun _ => Nat.zero_le _⟩
    | _ => simp_all
  | cons b rest ih =>
    obtain ⟨u, hblock, row⟩ := blockStep_poll hp fun _ _ => h.cursorBound
    have hstep := (step_undisturbed hu hp.1).trans hblock
    have hrest := (row.followsSummary h hp hrx).rx
    rcases row.ends_or_continues h hp hrx with ⟨hb, hleft⟩ | ⟨hpu, hleft⟩
    · exact ⟨1, u, [b], by simp, runSteps_succ hstep, hb, by rw [hrest]; rfl, fun _ => hleft⟩
    · obtain ⟨k, t, eaten, hk, hrun, hb, heaten, hbound⟩ :=
        ih (row.coherent h hp) hpu (row.sameSchedule.undisturbed hu) hrest
      refine ⟨k + 1, t, b :: eaten, Nat.succ_le_succ hk, (runSteps_succ hstep).trans hrun, hb, by rw [heaten]; rfl,
        fun hst => ?_⟩
      obtain ⟨hstu, hless⟩ := hleft hst
      exact (Nat.succ_le_succ (hbound hstu)).trans hless

/-- Settles O53: by induction on the bytes waiting. -/
theorem pollWorkBounded : Obligations.PollWorkBounded := by
  intro s h hp hu
  obtain ⟨k, t, eaten, hk, hrun, hb, hrx, hleft⟩ := poll_ends h hp hu rfl
  exact ⟨k, t, eaten, hk, hrun, hb, hrx, fun hst => (hleft hst).trans (bytesLeft_le hst)⟩

/-! ### POLLs that find no byte (R101, R116) -/

/-- `s` is configured with no byte available, idle or with a POLL in flight, and all that is still to come is that the
Host presents a POLL or waits, or that the Block moves. -/
structure Starved (s : State) : Prop where
  cfgValid : s.cfgValid = true
  rx : s.rx = []
  command : s.busy = false ∨ Polling s
  actions : ∀ a ∈ s.agenda ++ s.cycle, a = .issue 0x300#10 ∨ a = .await ∨ a = .block

/-- From `s` to `t` the receiver, the configuration, the fault bit and both streams are as they were. -/
structure HoldsReceiver (s t : State) : Prop where
  receiver : t.receiver = s.receiver
  config : SameConfig s t
  faulted : t.faulted = s.faulted
  rx : t.rx = s.rx
  tx : t.tx = s.tx

theorem HoldsReceiver.refl (s : State) : HoldsReceiver s s := ⟨rfl, ⟨rfl, rfl, rfl⟩, rfl, rfl, rfl⟩

theorem HoldsReceiver.trans {s t u : State} (h : HoldsReceiver s t) (h' : HoldsReceiver t u) : HoldsReceiver s u where
  receiver := h'.receiver.trans h.receiver
  config := ⟨h'.config.crc8Fn.trans h.config.crc8Fn, h'.config.cfgLen.trans h.config.cfgLen,
    h'.config.cfgValid.trans h.config.cfgValid⟩
  faulted := h'.faulted.trans h.faulted
  rx := h'.rx.trans h.rx
  tx := h'.tx.trans h.tx

theorem holdsReceiver_withAgenda (s : State) (ms : List AgentMove) : HoldsReceiver s (s.withAgenda ms) :=
  ⟨rfl, ⟨rfl, rfl, rfl⟩, rfl, rfl, rfl⟩

/-- With no byte available the Block has no row but RX_EMPTY, and idle it has none (R69, R164). -/
theorem BlockCase.holdsReceiver {s t : State} (hrx : s.rx = []) (hcmd : s.busy = false ∨ Polling s)
    (hc : BlockCase s t) : HoldsReceiver s t ∧ (t.busy = false ∨ Polling t) := by
  cases hc with
  | idle => exact ⟨.refl s, hcmd⟩
  | poll _ row =>
    cases row with
    | empty => exact ⟨⟨by simp [State.receiver], ⟨rfl, rfl, rfl⟩, rfl, rfl, rfl⟩, .inl rfl⟩
    | _ => simp_all
  | send hs => exact absurd hs (hcmd.elim not_sending_of_idle not_sending_of_polling)

/-- A POLL presented to a configured Block is turned away or accepted (R100, R152). -/
theorem CommandCase.holdsReceiver {s t : State} (hcfg : s.cfgValid = true) (hb : s.busy = false)
    (hc : CommandCase 0x300#10 s t) : HoldsReceiver s t ∧ (t.busy = false ∨ Polling t) := by
  have hpoll : decodeCmd 0x300#10 = .instr .poll := rfl
  cases hc with
  | away => exact ⟨.refl s, .inl hb⟩
  | poll => exact ⟨⟨rfl, ⟨rfl, rfl, rfl⟩, rfl, rfl, rfl⟩, .inr ⟨rfl, rfl⟩⟩
  | _ => simp_all

theorem Starved.step {s t : State} (h : Starved s) (hstep : step s = .next t) : HoldsReceiver s t ∧ Starved t := by
  have hact := step_keeps_actions h.actions hstep
  have hheld : HoldsReceiver s t ∧ (t.busy = false ∨ Polling t) := by
    cases step_next hstep with
    | block _ hb => exact hb.holdsReceiver h.rx h.command
    | @action a rest _ hs hc =>
      refine And.imp_left (holdsReceiver_withAgenda s rest).trans ?_
      rcases h.actions a (schedule_subset s (hs ▸ List.mem_cons_self)) with rfl | rfl | rfl
      · cases hc with
        | issue hb hw => exact hw.holdsReceiver h.cfgValid hb
      · cases hc with
        | await => exact ⟨.refl _, h.command⟩
      · cases hc with
        | block hb => exact hb.holdsReceiver h.rx h.command
  obtain ⟨hr, hcmd⟩ := hheld
  exact ⟨hr, hr.config.cfgValid.trans h.cfgValid, hr.rx.trans h.rx, hcmd, hact⟩

/-- Settles O54: every step of such a run holds the receiver and leads to such a state again. -/
theorem idlePollsChangeNothing : Obligations.IdlePollsChangeNothing := by
  intro k s t hcfg hrx hcmd hacts hrun
  obtain ⟨hr, -⟩ := runSteps_invariant (P := fun u => HoldsReceiver s u ∧ Starved u)
    (fun _ _ ⟨hr, hu⟩ hstep => (hu.step hstep).imp_left hr.trans) ⟨.refl s, hcfg, hrx, hcmd, hacts⟩ hrun
  exact ⟨congrArg Receiver.state hr.receiver, BitVec.eq_of_toNat_eq (congrArg Receiver.cursor hr.receiver),
    congrArg Receiver.scr hr.receiver, congrArg Receiver.recMem hr.receiver, hr.config.cfgLen, hr.faulted,
    hr.rx.trans hrx, hr.tx, congrArg Receiver.trues hr.receiver⟩

/-! ### A POLL that never ends (R112, R182) -/

/-- Two states that step to each other: a run from one of them is always in one of them. -/
theorem runSteps_alternate {s u : State} (hsu : step s = .next u) (hus : step u = .next s) (k : Nat) :
    runSteps k s = .next s ∨ runSteps k s = .next u := by
  induction k with
  | zero => exact .inl rfl
  | succ k ih =>
    rcases ih with hrun | hrun
    · exact .inr ((runSteps_add (k := 1) hrun).trans (runSteps_succ hsu))
    · exact .inl ((runSteps_add (k := 1) hrun).trans (runSteps_succ hus))

/-- `s` after the RX source has appended `b`, with the Block's move still to come. -/
def State.fed (s : State) (b : Byte) : State := { s with rx := [b], agenda := [.block] }

/-- Settles O59: the run alternates between the state before the byte arrives and the state in which it waits. -/
theorem pollNeedNotEnd : Obligations.PollNeedNotEnd := by
  intro k s b hp hst hrx hb hag hcy
  have hsched : s.schedule = [.rxAppend [b], .block] := (schedule_of_agenda_nil hag).trans hcy
  have harrive : step s = .next (s.fed b) := by
    rw [step_agent hsched rfl, agentStep, withAgenda_rx, hrx]
    rfl
  have hskip : step (s.fed b) = .next s := by
    obtain ⟨-, hd, hexec⟩ := junkSkipped ((s.fed b).withAgenda []) b [] hp hst rfl hb
    rw [(stepRunsDecodedRow (s.fed b) _ _ (fetched_polling_cons hp rfl) hd).2 [] rfl, hexec, ← hrx, ← hag]
    rfl
  rcases runSteps_alternate harrive hskip k with hrun | hrun
  · exact ⟨s, hrun, hp, hst, rfl⟩
  · exact ⟨s.fed b, hrun, hp, hst, rfl⟩

end Sys2Proof.Machine
end

section
/-! SUPPORT. The checksum (R140-R142, log entry 14): its check value, byte-at-a-time form and table, and what follows for
zero bytes, for an appended checksum and for a changed byte. -/

namespace Sys2Proof.Machine

/-! ### The value of the default function (R140, R141, R143) -/

/-- Entry b of the table T is the update of the initial value by b (R141). -/
theorem crcTable_getElem? : ∀ b : Byte, crcTable[b.toNat]? = some (crc8Update 0x00#8 b) := by decide

/-- Settles O56: an update depends only on `c XOR b`, so the table of the initial value serves every running value. -/
theorem checksumIsSmbus : Obligations.ChecksumIsSmbus := by
  have hcheck : crc8 [0x31, 0x32, 0x33, 0x34, 0x35, 0x36, 0x37, 0x38, 0x39] = 0xF4#8 := by decide +kernel
  have htable (c b : Byte) : crcTable[(c ^^^ b).toNat]? = some (crc8Update c b) := by
    rw [crcTable_getElem?, ← crc8Update_eq_zero_xor]
  exact ⟨hcheck, crc8_append_byte, crc8_nil, htable, value_smbus⟩

/-! ### What follows from it (R142) -/

/-- A running CRC updated with itself is the zero residue. -/
@[simp] theorem crc8Update_self (c : Byte) : crc8Update c c = 0x00#8 := by
  rw [crc8Update_eq_zero_xor, BitVec.xor_self]
  decide

/-- Zero bytes leave the initial value as it is (R142 item 2). -/
theorem crc8_replicate_zero (n : Nat) : crc8 (List.replicate n 0x00#8) = 0x00#8 := by
  induction n with
  | zero => exact crc8_nil
  | succ n ih => rw [List.replicate_succ', crc8_append_byte, ih, crc8Update_self]

/-- A list followed by its own checksum has the zero residue (R142 item 3). -/
theorem crc8_append_crc8 (xs : List Byte) : crc8 (xs ++ [crc8 xs]) = 0x00#8 := by
  rw [crc8_append_byte, crc8Update_self]

/-- Settles O57: a value updated with itself is 0, and every update is injective in the running value and in the byte. -/
theorem checksumConsequences : Obligations.ChecksumConsequences :=
  ⟨crc8_replicate_zero, crc8_append_crc8, fun xs ys _ _ hne => crc8_ne_of_changed_byte xs ys hne.symm⟩

end Sys2Proof.Machine
end

section
/-! SUPPORT. Proofs of the statements about the exceptions (60_exceptions.md): what the faulted state holds, and which
commands fault or are turned away. -/

namespace Sys2Proof.Machine

/-! ### The faulted state (R152, R159, R164) -/

/-- From `s` to `t` every register of the Block is as it was, the fault bits and `busy` among them: only the stores and
streams it shares with other agents, and the agents' own state, may differ. -/
def SameBlock (s t : State) : Prop :=
  t = { s with
    recMem := t.recMem, rx := t.rx, tx := t.tx, txReady := t.txReady, hostLog := t.hostLog
    agenda := t.agenda }

theorem Coherent.idle_of_faulted {s : State} (h : Coherent s) (hf : s.faulted = true) : s.busy = false := by
  by_contra hb
  exact nomatch hf.symm.trans (h.busyUnfaulted (eq_true_of_ne_false hb))

/-- An idle Block's move changes nothing (R164). -/
theorem BlockCase.eq_of_idle {s t : State} (hb : s.busy = false) (hc : BlockCase s t) : t = s := by
  cases hc with
  | idle => rfl
  | poll hp => exact nomatch hb.symm.trans hp.1
  | send hs => exact absurd hs (not_sending_of_idle hb)

/-- A faulted Block turns every command word away, a reserved one too (R152). -/
theorem CommandCase.eq_of_faulted {w : Word10} {s t : State} (hf : s.faulted = true) (hc : CommandCase w s t) :
    t = s := by
  cases hc with
  | away => rfl
  | _ hf' => exact nomatch hf.symm.trans hf'

/-- Of the actions only the two resets reach the registers of an idle faulted Block. -/
theorem AgentCase.sameBlock {s t : State} {a : AgentMove} (hb : s.busy = false) (hf : s.faulted = true)
    (hreset : a ≠ .hwReset) (hcopy : a ≠ .hwResetInCopy) (hc : AgentCase s a t) : SameBlock s t := by
  cases hc with
  | issue _ hw => rw [hw.eq_of_faulted hf]; rfl
  | block hblock => rw [hblock.eq_of_idle hb]; rfl
  | hazardRead _ hb' => exact nomatch hb.symm.trans hb'
  | hazardWrite _ hb' => exact nomatch hb.symm.trans hb'
  | hwReset => exact absurd rfl hreset
  | hwResetInCopy => exact absurd rfl hcopy
  | _ => rfl

/-- Settles O35: a faulted Block is idle, so neither its own move nor any action but a reset reaches its registers. -/
theorem faultIsSticky : Obligations.FaultIsSticky := by
  intro s t h hf hstep hreset hcopy
  have hb := h.idle_of_faulted hf
  have hsame : SameBlock s t := by
    cases step_next hstep with
    | block _ hc => rw [hc.eq_of_idle hb]; rfl
    | @action a rest _ hs hc =>
      exact hc.sameBlock (s := s.withAgenda rest) hb hf (fun ha => hreset rest (ha ▸ hs))
        (fun ha => hcopy rest (ha ▸ hs))
  rw [hsame]
  exact ⟨hf, rfl, hb, rfl, rfl, rfl, rfl, rfl, rfl, rfl, rfl⟩

/-! ### Commands that fault or are turned away (R64, R151, R152) -/

theorem onConfigured_of_unconfigured {s : State} (run : Result) (hc : s.cfgValid = false) :
    onConfigured s run = .next (raiseFault .unconfigured s) := by
  simp [onConfigured, hc]

/-- A command that the Block would accept fails the configuration check with fault entry (R151). -/
theorem onAccept_onConfigured_of_unconfigured {s : State} (run : Result) (h : Accepting s) (hc : s.cfgValid = false) :
    onAccept s (onConfigured s run) = .next { s with faulted := true, faultReason := .unconfigured } := by
  rw [onAccept_of_accepting h.1 h.2, onConfigured_of_unconfigured run hc, raiseFault_of_idle _ h.1]

/-- Settles O14: SEND and POLL share the configuration check. -/
theorem unconfiguredCommandsFault : Obligations.UnconfiguredCommandsFault := by
  rintro s i (rfl | rfl) h hc
  · exact onAccept_onConfigured_of_unconfigured _ h hc
  · exact onAccept_onConfigured_of_unconfigured _ h hc

theorem onAccept_of_faulted {s : State} (run : Result) (hb : s.busy = false) (hf : s.faulted = true) :
    onAccept s run = .next s := by
  simp [onAccept, hb, hf]

theorem onAccept_of_busy {s : State} (run : Result) (hb : s.busy = true) :
    onAccept s run = .refused .commandWhileBusy := by
  simp [onAccept, hb]

/-- The meaning of every command is guarded by its being accepted (R64). -/
theorem exec_eq_onAccept {i : Instr} (s : State) (hi : i = .send ∨ i = .poll ∨ ∃ n, i = .begin n) :
    ∃ run, exec i s = onAccept s run := by
  rcases hi with rfl | rfl | ⟨n, rfl⟩ <;> exact ⟨_, rfl⟩

/-- Settles O16: every command's meaning begins with the same guard, which either state fails. -/
theorem commandsTurnedAway : Obligations.CommandsTurnedAway := by
  intro s i hi
  obtain ⟨run, hrun⟩ := exec_eq_onAccept s hi
  rw [hrun]
  exact ⟨onAccept_of_faulted run, onAccept_of_busy run⟩

end Sys2Proof.Machine
end

section
/-! SUPPORT. Proofs of the statements about reset and hazards (70_reset_and_hazards.md): the Host's accesses to REC between
commands, and what a reset inside the copy leaves of REC. -/

namespace Sys2Proof.Machine

/-! ### The Host's accesses between commands (R40, R175) -/

/-- With no command in flight, an access at an index that a record can have takes effect. -/
theorem onRecAccess_of_idle {i : Nat} {s u : State} (hi : i < Config.recCap) (hb : s.busy = false) :
    onRecAccess i s u = .next u := by
  rw [onRecAccess_of_lt s u hi, hb, if_neg Bool.false_ne_true]

/-- Settles O33: an idle access takes its effect, which for a write is one write to the store. -/
theorem idleRecAccess : Obligations.IdleRecAccess := by
  intro s rest i v hb hi hw
  refine ⟨fun hs => (step_agent hs rfl).trans (onRecAccess_of_idle hi hb), fun hs => ?_⟩
  exact ⟨_, (step_agent hs rfl).trans (onRecAccess_of_idle hi hb), rfl, Memory.read_write_same hw i v,
    fun a ha => Memory.read_write_other s.recMem v ha.symm⟩

/-! ### A reset inside the copy (R171) -/

/-- An index inside a copy cut short holds its old byte or its new one: what lands at the other indices does not reach it. -/
theorem read_partialCopy_inside {m : Memory} (hm : m.wf = true) (n a : Nat) (vs : List Byte) (i : Nat)
    (h : i < vs.length) :
    (partialCopy n m a vs).read (a + i) = m.read (a + i) ∨ (partialCopy n m a vs).read (a + i) = vs[i] := by
  induction vs generalizing m a i with
  | nil => exact absurd h (Nat.not_lt_zero i)
  | cons v vs ih =>
    rw [partialCopy]
    cases i with
    | zero =>
      rw [Nat.add_zero a, Memory.read_partialCopy_outside _ n vs (.inl a.lt_add_one)]
      split
      · exact .inr (Memory.read_write_same hm a v)
      · exact .inl rfl
    | succ i =>
      have hi : i < vs.length := Nat.lt_of_succ_lt_succ h
      have hidx : a + (i + 1) = a + 1 + i := by omega
      rw [hidx, List.getElem_cons_succ]
      split
      · rw [← Memory.read_write_other m v (show a ≠ a + 1 + i by omega)]
        exact ih (Memory.wf_write hm a v) (a + 1) i hi
      · exact ih hm (a + 1) i hi

/-- A payload whose copy into REC is cut short reaches REC at indices below N only, and there as it stood in the scratch
store. -/
theorem read_partialCopy_payload {s : State} (hw : s.recMem.wf = true) (n a : Nat) :
    (partialCopy n s.recMem 0 s.payload).read a = s.recMem.read a ∨
      a < s.recLen ∧ (partialCopy n s.recMem 0 s.payload).read a = s.scr.read a := by
  have hlen : s.payload.length = s.recLen := Memory.length_readRange _ _ _
  rcases Nat.lt_or_ge a s.recLen with ha | ha
  · have hin : a < s.payload.length := ha.trans_eq hlen.symm
    have hcopy := read_partialCopy_inside hw n 0 s.payload a hin
    have hread : s.payload[a] = s.scr.read (0 + a) := Memory.getElem_readRange s.scr 0 s.recLen a hin
    rw [hread, Nat.zero_add] at hcopy
    exact hcopy.imp_right (⟨ha, ·⟩)
  · exact .inl (Memory.read_partialCopy_outside _ n _ (.inr (by omega)))

/-- After a reset inside the copy, REC differs from before only where the copy was due, and there only by payload bytes. -/
theorem read_hwResetInCopy {s : State} (hw : s.recMem.wf = true) (a : Nat) :
    (hwResetInCopy s).recMem.read a = s.recMem.read a ∨
      a < s.recLen ∧ CopyDue s ∧ (hwResetInCopy s).recMem.read a = s.scr.read a := by
  rcases recMem_hwResetInCopy_eq_or_copyDue s with e | hdue
  · exact .inl (by rw [e])
  · rcases hwResetInCopy_cases s with e | ⟨b, rest, -, -, -, e⟩ <;> rw [e, hwReset_recMem]
    · exact .inl rfl
    · exact (read_partialCopy_payload hw s.freeCtr a).imp_right fun ⟨ha, hread⟩ => ⟨ha, hdue, hread⟩

/-- Whether or not the copy was due, the reset leaves the Block idle, unfaulted and unconfigured, and the transmit stream as
it was (R34, R170). -/
theorem hwResetInCopy_idle (s : State) :
    (hwResetInCopy s).busy = false ∧ (hwResetInCopy s).faulted = false ∧ (hwResetInCopy s).cfgValid = false ∧
      (hwResetInCopy s).tx = s.tx := by
  rcases hwResetInCopy_cases s with e | ⟨b, rest, -, -, -, e⟩ <;> rw [e] <;> exact ⟨rfl, rfl, rfl, rfl⟩

/-- Settles O37: the step is the reset inside the copy, which leaves of the copy some payload bytes and nothing else. -/
theorem resetInsideCopyMixesRecord : Obligations.ResetInsideCopyMixesRecord := by
  intro s t rest hw hs hstep
  have ht : hwResetInCopy (s.withAgenda rest) = t :=
    Host.Outcome.next.inj ((step_agent hs rfl).symm.trans hstep)
  subst ht
  obtain ⟨hidle, hunfaulted, hunconfigured, htx⟩ := hwResetInCopy_idle (s.withAgenda rest)
  refine ⟨hidle, hunfaulted, hunconfigured, hwResetInCopy_hostLog _, htx, fun a => ?_⟩
  refine (read_hwResetInCopy (s := s.withAgenda rest) hw a).imp_right ?_
  rintro ⟨ha, ⟨hp, hst, hc, hbyte⟩, hread⟩
  exact ⟨ha, hp, hst, hc, hbyte, hread⟩

end Sys2Proof.Machine
end

section
/-! SUPPORT. Proof of the statement about the host's placement interface: the state `withFetchWord` builds runs the placed
word. -/

namespace Sys2Proof.Machine

/-! ### The placed word is what the Block looks at (R60, R69, R70) -/

/-- A receive decode word is the one the Block forms from the state and the byte that the word names (R69). -/
theorem rxd_of_word {s : State} {w : Word10} (hst : s.rxState = RxState.ofCode (hiField w)) : s.rxd (loField w) = w := by
  rw [State.rxd, hst, RxState.code_ofCode, word10_fields]

/-- A placed row, whichever its format, is what the Block looks at, with a `block` action next on the agenda. -/
theorem fetched_placeFetched (c : RowCtx) (f : Fetched) (s : State) (hf : ∀ w, f ≠ .cmd w) :
    (placeFetched c f s).fetched = some f ∧ (placeFetched c f s).schedule = .block :: s.agenda := by
  cases f with
  | cmd w => exact absurd rfl (hf w)
  | noByte => exact ⟨rfl, rfl⟩
  | rxd w =>
    have hw : (placeFetched c (.rxd w) s).rxd (loField w) = w := rxd_of_word rfl
    exact ⟨(fetched_polling_cons ⟨rfl, rfl⟩ rfl).trans (by rw [hw]), rfl⟩
  | txk k => exact ⟨rfl, rfl⟩

/-- Placing sets every register that decoding the placed word reads, so it decodes as it does under the given registers. -/
theorem decode_placeFetched (c : RowCtx) (f : Fetched) (s : State) :
    decode (placeFetched c f s).rowCtx f = decode c f := by
  cases f <;> rfl

/-- What a placed word decodes to is what the very next step runs, be it a command or a row. -/
theorem step_placeFetched {c : RowCtx} {f : Fetched} {i : Instr} (s : State) (hd : decode c f = .instr i) :
    step (placeFetched c f s) = exec i ((placeFetched c f s).withAgenda s.agenda) := by
  rw [← decode_placeFetched c f s] at hd
  by_cases hcmd : ∃ w, f = .cmd w
  · obtain ⟨w, rfl⟩ := hcmd
    exact stepRunsDecodedCommand _ w s.agenda i ⟨rfl, rfl⟩ rfl hd
  · obtain ⟨hf, hs⟩ := fetched_placeFetched c f s fun w hw => hcmd ⟨w, hw⟩
    exact (stepRunsDecodedRow _ f i hf hd).2 s.agenda hs

end Sys2Proof.Machine

namespace Sys2Proof

/-! ### Table words (log entry 16) -/

theorem toOption_eq_some_iff {d : Decoded} {i : Instr} : d.toOption = some i ↔ d = .instr i := by
  cases d <;> simp [Decoded.toOption]

/-- A table word names an instruction in one way: by the format it is read in, decoded under the table's registers. -/
theorem decodeTableWord_eq_some_iff {nbits w : Nat} {i : Instr} :
    decodeTableWord nbits w = some i ↔ ∃ f, tableFetched nbits w = some f ∧ decode (tableCtx w) f = .instr i := by
  cases h : tableFetched nbits w <;> simp [decodeTableWord, h, toOption_eq_some_iff]

end Sys2Proof

namespace Sys2Proof.Machine

theorem withFetchWord_of_tableFetched {nbits w : Nat} {f : Fetched} (s : State) (h : tableFetched nbits w = some f) :
    s.withFetchWord nbits w = placeFetched (tableCtx w) f s := by
  rw [State.withFetchWord, h]

/-- Settles O9: the decoder reads the word in the same format and under the same registers as the placement places it. -/
theorem placedTableWordRuns : Obligations.PlacedTableWordRuns := by
  intro s nbits w i hw
  obtain ⟨f, hf, hd⟩ := decodeTableWord_eq_some_iff.1 hw
  rw [withFetchWord_of_tableFetched s hf]
  exact step_placeFetched s hd

end Sys2Proof.Machine
end
